-- ==== Sys2Proof/Config.lean ====
section
/-! DEFINITION. The parameters and fixed constants of `spec/00_scope.md` R5 and R6, and the values the spec leaves
free. -/

namespace Sys2Proof.Config

/-- The width parameters of R5, with the range R5 makes legal. -/
structure Widths where
  /-- `W_IN`, the width of `ENC_VALUE`. -/
  wIn : Nat
  /-- `W_OUT`, the width of `DEC_VALUE`. -/
  wOut : Nat
  wIn_legal : 19 ≤ wIn
  wOut_legal : 19 ≤ wOut

/-- The values R5 gives the parameters in this spec. Everything else is written in terms of `wIn` and `wOut`, so another
legal pair is set here and nowhere else. DESIGN CHOICE, safe (log 1): a machine has one pair. -/
abbrev widths : Widths where
  wIn := 32
  wOut := 32
  wIn_legal := by decide
  wOut_legal := by decide

/-- `W_IN` (R5). -/
abbrev wIn : Nat := widths.wIn

/-- `W_OUT` (R5). -/
abbrev wOut : Nat := widths.wOut

/-- The width of a CompressedByte, `SHIFT_BITS + MANT_BITS` (R5, R38). -/
def byteBits : Nat := 8

/-- `CMAX`, the largest input in range (R6). -/
def cMax : Nat := 516095

/-- `BYTE_MAX`, the saturation byte (R5, R62). -/
def byteMax : Nat := 0xFF

/-- `DEC_MAX`, the largest decoded value (R5, R73). -/
def decMax : Nat := 507904

/-- `T_SETTLE` (R5, R95, R99): open, greater than 0, any unit. No definition of a step reads it. DESIGN CHOICE, safe
(log 15): it counts ticks of an unnamed unit. -/
opaque tSettle : ℕ+

/-- What a free value stands at. One constructor for each output port and each signal of a bounded stage, so that the
free values of two different places are not tied to each other. -/
inductive FreeSource where
  | encByte | encExact | decValue
  | i | w | r | wr | c | ir | shift | mantissa
  deriving DecidableEq, Repr

/-- The free values (R92, R95, and U5, U6, U8 of `spec/93_implementation_defined.md`: "any value"). Nothing constrains
one: it is applied to the place it stands at, to the number of the block in its row, and to that datapath's own count
of draws. DESIGN CHOICE, safe (log 4).
The spec does not say how the free values of two blocks (R33, R88), or of two runs of one block, relate. Two states with
the same number and the same count of draws carry EQUAL free values here; with different numbers nothing ties them.
DESIGN CHOICE, unsafe for a claim that compares two such states (log 19). -/
opaque freeBits (width : Nat) (source : FreeSource) (serial draws : Nat) : BitVec width

end Sys2Proof.Config
end

