-- ==== Sys2Proof/Word.lean ====
section
/-! DEFINITION. The words of CITB8's ports: `spec/10_state.md` R15 and R16. -/

namespace Sys2Proof

/-- A CompressedByte, the pattern on `ENC_BYTE` and `DEC_BYTE` (R38). -/
abbrev Byte := BitVec 8

/-- One of the two 4-bit fields of a CompressedByte (R38). -/
abbrev Nibble := BitVec 4

/-- The pattern on `ENC_VALUE`: `W_IN` bits (R5, R15, R42). -/
abbrev EncValue := BitVec Config.wIn

/-- The pattern on `DEC_VALUE`: `W_OUT` bits (R5, R16, R43). -/
abbrev DecValue := BitVec Config.wOut

end Sys2Proof
end

