-- ==== Sys2Proof/Machine/Flags.lean ====
section
/-! DEFINITION. Every one-bit condition the spec computes: `ENC_EXACT` (R21, R64), the round bit (R56) and the carry
(R57). CITB8 stores none of them. -/

namespace Sys2Proof.Machine

/-- `ENC_EXACT`: the input is in range. It does not say that the encoding is lossless (R64, conflict C2). -/
def exactFlag (v : Nat) : Bool := decide (v ≤ Config.cMax)

/-- `r = w & 1`, the bit below the retained 5-bit significand (R56). -/
def roundBit (w : Nat) : Nat := w &&& 1

/-- `c = (wr >> 6) & 1`, the carry out of the 6-bit window (R57). -/
def carryBit (wr : Nat) : Nat := (wr >>> 6) &&& 1

end Sys2Proof.Machine
end

