-- ==== Sys2Proof/Machine/Stages.lean ====
section
/-! DEFINITION. The arithmetic of every operation, over unbounded natural numbers with explicit masks as
`spec/00_scope.md` R8 asks, so that no result depends on `W_IN` or `W_OUT`. -/

namespace Sys2Proof.Machine

/-! ### The packer (`spec/40_packer.md`) -/

/-- `PACK`: `((shift & 0xF) << 4) | (mantissa & 0xF)` (R39, R51). -/
def packFields (shift mantissa : Nat) : Nat := ((shift &&& 0xF) <<< 4) ||| (mantissa &&& 0xF)

/-- `UNPACK`'s `s`, bits [7:4] (R39, R52). -/
def shiftField (byte : Nat) : Nat := (byte >>> 4) &&& 0xF

/-- `UNPACK`'s `m`, bits [3:0] (R39, R52). -/
def mantissaField (byte : Nat) : Nat := byte &&& 0xF

/-! ### The normalizer (`spec/41_normalizer.md`) -/

/-- The scan of R54 over bits `k + 4` down to 5, with 4 when none of them is set. -/
def msbScanFrom (v : Nat) : Nat → Nat
  | 0 => 4
  | k + 1 => if v.testBit (k + 5) then k + 5 else msbScanFrom v k

/-- `MSBSCAN`: the leading one among bits 19 down to 4 (R54, decision D7 of the spec for no bit set). -/
def msbScan (v : Nat) : Nat := msbScanFrom v 15

/-- `WINDOW`: `v >> (i - 5)` (R55). Used only where `i ≥ 5`. -/
def windowBits (v i : Nat) : Nat := v >>> (i - 5)

/-- `ROUND`'s `wr = w + r`, untruncated (R56). -/
def roundedWindow (w : Nat) : Nat := w + roundBit w

/-- `RENORM`'s `ir = i + c` (R57). -/
def renormIndex (wr i : Nat) : Nat := i + carryBit wr

/-- The stored mantissa, the implicit leading one dropped: `(wr >> 1) & 0xF` (R58). -/
def mantissaOf (wr : Nat) : Nat := (wr >>> 1) &&& 0xF

/-- The stored shift, `ir - 3` (R58). Used only where `ir ≥ 5`. -/
def shiftOf (ir : Nat) : Nat := ir - 3

/-- The rounded window of an input (R59: MSBSCAN, WINDOW, ROUND). -/
def normWindow (v : Nat) : Nat := roundedWindow (windowBits v (msbScan v))

/-- The renormalized index of an input (R59: RENORM). -/
def normIndex (v : Nat) : Nat := renormIndex (normWindow v) (msbScan v)

/-- `NORMALIZE`: `(shift, mantissa)` of an input in 32..CMAX (R59). -/
def normalizeFields (v : Nat) : Nat × Nat := (shiftOf (normIndex v), mantissaOf (normWindow v))

/-! ### The encoder (`spec/42_encoder.md`) -/

/-- The fields of an input in range: the small-value path (R63) before NORMALIZE (R65). -/
def encodeFields (v : Nat) : Nat × Nat :=
  if v < 16 then (0, v)
  else if v < 32 then (1, v - 16)
  else normalizeFields v

/-- The byte of `ENCODE` (R61): saturation first (R62, R65, R82). -/
def encodeByte (v : Nat) : Nat :=
  if v > Config.cMax then Config.byteMax
  else packFields (encodeFields v).1 (encodeFields v).2

/-- `ENCODE` on a value of any width (R5, R61): what `ENC_BYTE` and `ENC_EXACT` carry. -/
def encodeResult {width : Nat} (v : BitVec width) : Byte × Bool :=
  (BitVec.ofNat 8 (encodeByte v.toNat), exactFlag v.toNat)

/-! ### The decoder (`spec/43_decoder.md`) -/

/-- The significand of R41: the mantissa itself at shift 0, the implicit leading one above it otherwise. -/
def significand (s m : Nat) : Nat := if s = 0 then m else 16 + m

/-- The amount the significand is shifted by: 0 at shift 0, `s - 1` otherwise (R41). -/
def scaleShift (s : Nat) : Nat := if s = 0 then 0 else s - 1

/-- The value of a CompressedByte, as a natural number (R41, R72). -/
def decodeNat (byte : Nat) : Nat :=
  significand (shiftField byte) (mantissaField byte) <<< scaleShift (shiftField byte)

/-- `DECODE` on a driven byte, zero-extended to any width (R5, R72): what `DEC_VALUE` carries. -/
def decodeResult (width : Nat) (b : Byte) : BitVec width := BitVec.ofNat width (decodeNat b.toNat)

end Sys2Proof.Machine
end

