-- ==== Sys2Proof/Machine/Operands.lean ====
section
/-! DEFINITION. The operands each internal stage's rule admits (`spec/41_normalizer.md`, the **Operands** lines; R10:
a function is total on every input its rule admits). ENCODE, DECODE, PACK, UNPACK and MSBSCAN admit every operand of
their widths (R27, R40, R51, R52, R54). -/

namespace Sys2Proof.Machine

/-- NORMALIZE's operand: `32 <= v <= CMAX` (R59). -/
def normalizeAdmits (v : Nat) : Bool := decide (32 ≤ v ∧ v ≤ Config.cMax)

/-- WINDOW's operands: `32 <= v <= CMAX` and `i = MSBSCAN(v)` (R55). -/
def windowAdmits (v i : Nat) : Bool := normalizeAdmits v && decide (i = msbScan v)

/-- ROUND's operand: a window 32..63; 63 is the width's own bound (R56). -/
def roundAdmits (w : Nat) : Bool := decide (32 ≤ w ∧ w ≤ 63)

/-- RENORM's operands: a rounded window 32..64 and an index 5..18 (R57). -/
def renormAdmits (wr i : Nat) : Bool := decide (32 ≤ wr ∧ wr ≤ 64) && decide (5 ≤ i ∧ i ≤ 18)

end Sys2Proof.Machine
end

