-- ==== Sys2Proof/Syntax.lean ====
section
/-! DEFINITION. The nine operations of `spec/opcode_table.json` (`spec/30_encoding.md` R45), the two port groups that
select an external one (R44), and the pattern a host drives on a port group (R49). -/

namespace Sys2Proof

/-- The port group an operation is presented on, which is its only "opcode" (R44). -/
inductive PortGroup where
  | encoder
  | decoder
  deriving DecidableEq, Repr

/-- A bit pattern driven on an input port: the "encoding" of a transaction (R49). -/
inductive PortWord where
  /-- `ENC_VALUE` driven with a `W_IN`-bit value (R42). -/
  | encValue (v : EncValue)
  /-- `DEC_BYTE` driven with a CompressedByte (R40). -/
  | decByte (b : Byte)
  deriving DecidableEq, Repr

/-- The operations of R45. The operands of each are those its rule names, in the rule's order. -/
inductive Instr where
  /-- ENCODE (R61): compress `v = in(ENC_VALUE)`. -/
  | encode (v : EncValue)
  /-- DECODE (R72): expand `b = in(DEC_BYTE)`. -/
  | decode (b : Byte)
  /-- PACK (R51): the two fields into a CompressedByte. -/
  | pack (shift mantissa : Nibble)
  /-- UNPACK (R52): a CompressedByte into its two fields. -/
  | unpack (byte : Byte)
  /-- MSBSCAN (R54): the leading one of the encoder's input. -/
  | msbscan (v : EncValue)
  /-- WINDOW (R55): the 6-bit window under the leading one. -/
  | window (v : EncValue) (i : BitVec 5)
  /-- ROUND (R56): round half up on the window. -/
  | round (w : BitVec 6)
  /-- RENORM (R57): renormalize on a carry out of the window. -/
  | renorm (wr : BitVec 7) (i : BitVec 5)
  /-- NORMALIZE (R59): the complete normalizer. -/
  | normalize (v : EncValue)
  deriving DecidableEq, Repr

/-- Whether a port can invoke the operation: ENCODE and DECODE only (R45). -/
def Instr.isExternal : Instr → Bool
  | .encode _ => true
  | .decode _ => true
  | .pack _ _ => false
  | .unpack _ => false
  | .msbscan _ => false
  | .window _ _ => false
  | .round _ => false
  | .renorm _ _ => false
  | .normalize _ => false

end Sys2Proof
end

