-- ==== Sys2Proof/WellFormed.lean ====
section
/-! DEFINITION. Which instructions are well formed: those whose operands the operation's rule admits. The widths of the
operands are in their types; what is checked here is the ranges of R55, R56, R57 and R59. -/

namespace Sys2Proof

/-- The check of an instruction's operands against the **Operands** line of its rule. -/
def Instr.wf : Instr → Bool
  | .encode _ => true
  | .decode _ => true
  | .pack _ _ => true
  | .unpack _ => true
  | .msbscan _ => true
  | .window v i => Machine.windowAdmits v.toNat i.toNat
  | .round w => Machine.roundAdmits w.toNat
  | .renorm wr i => Machine.renormAdmits wr.toNat i.toNat
  | .normalize v => Machine.normalizeAdmits v.toNat

end Sys2Proof
end

