-- ==== Sys2Proof/Decode.lean ====
section
/-! DEFINITION. From a driven bit pattern to the operation, and back (`spec/30_encoding.md` R44, R45, R49). There is no
opcode field: the width of the pattern says which port it fits, and the port says which operation runs. -/

namespace Sys2Proof

/-- Why a bit pattern is no transaction. -/
inductive DecodeError where
  /-- No input port of CITB8 has this width (R15, R16, R17). -/
  | noPortOfWidth (nbits : Nat)
  /-- The value needs more bits than the port has, so it cannot be presented (R27). -/
  | doesNotFit (nbits w : Nat)
  deriving DecidableEq, Repr

/-- The width in bits of a port word. -/
def PortWord.nbits : PortWord → Nat
  | .encValue _ => Config.wIn
  | .decByte _ => Config.byteBits

/-- The bits of a port word, read as an unsigned number (R7). -/
def PortWord.bits : PortWord → Nat
  | .encValue v => v.toNat
  | .decByte b => b.toNat

/-- The port a pattern of `nbits` bits is driven on. A pattern of 8 bits is a byte on `DEC_BYTE`; PACK and UNPACK share
its layout but have no port of their own (R45). DESIGN CHOICE, safe (log 9). -/
def portWord (nbits w : Nat) : Except DecodeError PortWord :=
  if nbits = Config.wIn then
    if w < 2 ^ Config.wIn then .ok (.encValue (BitVec.ofNat Config.wIn w)) else .error (.doesNotFit nbits w)
  else if nbits = Config.byteBits then
    if w < 2 ^ Config.byteBits then .ok (.decByte (BitVec.ofNat 8 w)) else .error (.doesNotFit nbits w)
  else .error (.noPortOfWidth nbits)

/-- The operation a port word selects: every pattern is a legal one (R27, R40, R42, R44). -/
def decodePort : PortWord → Instr
  | .encValue v => .encode v
  | .decByte b => .decode b

/-- The operation a bit pattern selects, or why it is none. -/
def decodeWord (nbits w : Nat) : Except DecodeError Instr :=
  match portWord nbits w with
  | .ok p => .ok (decodePort p)
  | .error e => .error e

/-- The port word of an operation. An internal stage has none: no port can invoke it alone (R45). -/
def encodeInstr : Instr → Option PortWord
  | .encode v => some (.encValue v)
  | .decode b => some (.decByte b)
  | .pack _ _ => none
  | .unpack _ => none
  | .msbscan _ => none
  | .window _ _ => none
  | .round _ => none
  | .renorm _ _ => none
  | .normalize _ => none

/-- The operation the decoder reads from the bits of an opcode-table row. Bit k of the pattern is bit k of the port
(R7, R29), so nothing is reordered. -/
def decodeTableWord (nbits w : Nat) : Option Instr :=
  match decodeWord nbits w with
  | .ok i => some i
  | .error _ => none

end Sys2Proof
end

