-- ==== Sys2Proof/Machine/State.lean ====
section
/-! DEFINITION. The state of the model. CITB8 itself holds no architectural state: its own state type is `Unit`
(`spec/10_state.md` R13). The other fields are not the block's: they are what stands on the wires of its ports, how far
each datapath has settled, and the model's own bookkeeping. -/

namespace Sys2Proof.Machine

/-- The architectural state of CITB8: none (R13, R22, R24). -/
abbrev BlockState := Unit

/-- How far a datapath has come since its input last changed (R92, R95). DESIGN CHOICE, safe (log 3). -/
inductive Phase where
  /-- The host has not driven the input since power-up (R92). -/
  | undriven
  /-- The input has changed and `T_SETTLE` has not passed: the outputs are any value (R95). -/
  | changing
  /-- `T_SETTLE` has passed: the outputs are the function of the input (R18). -/
  | settled
  deriving DecidableEq, Repr

/-- The encoder's internal signals (R19), and PACK's result. A signal exists only inside an evaluation: it is `none` where
no stage of an evaluation under way has written it. DESIGN CHOICE, safe (log 10). -/
structure EncSignals where
  /-- Leading-one index (R54). -/
  i : Option (BitVec 5)
  /-- The window (R55). -/
  w : Option (BitVec 6)
  /-- The round bit (R56). -/
  r : Option (BitVec 1)
  /-- The rounded window (R56). -/
  wr : Option (BitVec 7)
  /-- The carry (R57). -/
  c : Option (BitVec 1)
  /-- The renormalized index (R57). -/
  ir : Option (BitVec 5)
  /-- The exponent field before packing (R58, R61). -/
  shift : Option Nibble
  /-- The mantissa field before packing (R58, R61). -/
  mantissa : Option Nibble
  /-- PACK's result `byte` (R51). -/
  packed : Option Byte
  deriving DecidableEq, Repr

/-- The decoder's internal signals (R20). DESIGN CHOICE, safe (log 10). -/
structure DecSignals where
  /-- The shift field (R52). -/
  s : Option Nibble
  /-- The mantissa field (R52). -/
  m : Option Nibble
  deriving DecidableEq, Repr

/-- No evaluation of ENCODE is under way: no signal exists (R19). -/
def EncSignals.absent : EncSignals := ⟨none, none, none, none, none, none, none, none, none⟩

/-- No evaluation of DECODE is under way. -/
def DecSignals.absent : DecSignals := ⟨none, none⟩

/-- The encoder's ports (R15) and the model's own record of them. -/
structure EncoderSide where
  /-- `ENC_VALUE`, driven by the host (R15). -/
  value : EncValue
  /-- The encoder's phase (R92, R95). -/
  phase : Phase
  /-- `ENC_BYTE` (R15). -/
  byte : Byte
  /-- `ENC_EXACT`, `true` for 1 (R15, R21). -/
  exact : Bool
  /-- The signals of an evaluation under way (R19). -/
  sig : EncSignals
  /-- How many free values the encoder has drawn. DESIGN CHOICE, safe (log 4). -/
  draws : Nat
  deriving DecidableEq, Repr

/-- The decoder's ports (R16) and the model's own record of them. -/
structure DecoderSide where
  /-- `DEC_BYTE`, driven by the host (R16). -/
  byte : Byte
  /-- The decoder's phase (R92, R95). -/
  phase : Phase
  /-- `DEC_VALUE` (R16). -/
  value : DecValue
  /-- The signals of an evaluation under way (R20). -/
  sig : DecSignals
  /-- How many free values the decoder has drawn. DESIGN CHOICE, safe (log 4). -/
  draws : Nat
  deriving DecidableEq, Repr

/-- The block, which holds nothing, and its two sides, which share nothing (R13, R14). -/
structure State where
  /-- The block's own state (R13). -/
  block : BlockState
  /-- The number of this block in a row of them (R88); read only to tell the free values of two blocks apart.
  DESIGN CHOICE, unsafe (log 19). -/
  serial : Nat
  /-- The encoder's side. -/
  enc : EncoderSide
  /-- The decoder's side. -/
  dec : DecoderSide
  deriving DecidableEq, Repr

/-- Why the machine stops with a fault: never. CITB8 raises no exception and no input faults (R78, R79, R80), so the
type has no constructor. -/
inductive Fault where
  deriving DecidableEq, Repr

/-- Why an operation is refused. No input of either operation is refused (R80). -/
inductive Refusal where
  /-- Raised by no arm: an operation of the table that has no meaning yet. Safe: the model stops where the hardware
  goes on. -/
  | notModelled (mnemonic : String)
  deriving DecidableEq, Repr

/-- A one-bit free value as a flag. -/
def freeFlag (source : Config.FreeSource) (serial draws : Nat) : Bool :=
  (Config.freeBits 1 source serial draws).getLsbD 0

/-- The block numbered `serial` after power-up (R26, R91 to R93): no input driven, every output unspecified, no signal.
DESIGN CHOICE, unsafe (log 5): the undriven inputs read 0 and each count of draws is 1.
An output keeps its free value until its own input is first driven or evaluated. DESIGN CHOICE, unsafe (log 20). -/
def State.powerUp (serial : Nat) : State where
  block := ()
  serial := serial
  enc :=
    { value := 0, phase := .undriven
      byte := Config.freeBits 8 .encByte serial 0, exact := freeFlag .encExact serial 0
      sig := .absent, draws := 1 }
  dec :=
    { byte := 0, phase := .undriven
      value := Config.freeBits Config.wOut .decValue serial 0
      sig := .absent, draws := 1 }

/-- The machine right after reset: the block numbered 0 after power-up (R91, R93). DESIGN CHOICE, unsafe (log 5,
log 19). -/
def State.reset : State := State.powerUp 0

end Sys2Proof.Machine
end

