-- ==== Sys2Proof/Machine/Ops.lean ====
section
/-! DEFINITION. The named operations over ports and signals: driving an input, settling a datapath, sampling its
outputs (`spec/10_state.md` R18, R25; `spec/70_reset_and_hazards.md` R92, R95, R96). Each touches one side of the state
only (R14). There is no memory, no register file, and no taking of or returning from an exception to share (R22, R28,
R78, R83, R84). -/

namespace Sys2Proof.Machine

/-! ### Driving an input port (R25) -/

/-- The wire `ENC_VALUE` already carries `v`: driving it again is no change of the input (R95). -/
def encCarries (v : EncValue) (s : State) : Bool := decide (s.enc.phase ≠ .undriven ∧ s.enc.value = v)

/-- The wire `DEC_BYTE` already carries `b`. -/
def decCarries (b : Byte) (s : State) : Bool := decide (s.dec.phase ≠ .undriven ∧ s.dec.byte = b)

/-- The host drives `ENC_VALUE`. Where that changes the input, the outputs are any value until the datapath settles (R95);
where it does not, nothing changes (R18). R95 lets an unsettled output take several values one after another; here it
carries ONE free value from the change until the datapath's next change or its evaluation, whatever happens on the other
port or in a stage meanwhile. DESIGN CHOICE, unsafe for a claim that compares an unsettled output at two instants of one
window (log 20). -/
def driveEnc (v : EncValue) (s : State) : State :=
  if encCarries v s then s
  else { s with enc :=
    { value := v, phase := .changing
      byte := Config.freeBits 8 .encByte s.serial s.enc.draws
      exact := freeFlag .encExact s.serial s.enc.draws
      sig := .absent, draws := s.enc.draws + 1 } }

/-- The host drives `DEC_BYTE`, in the same way. Before it settles all bits of `DEC_VALUE` are free, DESIGN CHOICE, safe
(log 16), and carry one free value through the window, DESIGN CHOICE, unsafe (log 20). -/
def driveDec (b : Byte) (s : State) : State :=
  if decCarries b s then s
  else { s with dec :=
    { byte := b, phase := .changing
      value := Config.freeBits Config.wOut .decValue s.serial s.dec.draws
      sig := .absent, draws := s.dec.draws + 1 } }

/-- The host drives a port word on the port it fits. -/
def drive (p : PortWord) (s : State) : State :=
  match p with
  | .encValue v => driveEnc v s
  | .decByte b => driveDec b s

/-! ### Signals -/

/-- The encoder's signals take new values. -/
def setEncSig (g : EncSignals) (s : State) : State := { s with enc := { s.enc with sig := g } }

/-- The decoder's signals take new values. -/
def setDecSig (g : DecSignals) (s : State) : State := { s with dec := { s.dec with sig := g } }

/-- The encoder's count of free values moves on. -/
def drawEnc (s : State) : State := { s with enc := { s.enc with draws := s.enc.draws + 1 } }

/-- The normalizer's signals of an input in 32..CMAX (R59); PACK's result is kept. -/
def normSignals (v : Nat) (g : EncSignals) : EncSignals :=
  { g with
    i := some (BitVec.ofNat 5 (msbScan v))
    w := some (BitVec.ofNat 6 (windowBits v (msbScan v)))
    r := some (BitVec.ofNat 1 (roundBit (windowBits v (msbScan v))))
    wr := some (BitVec.ofNat 7 (normWindow v))
    c := some (BitVec.ofNat 1 (carryBit (normWindow v)))
    ir := some (BitVec.ofNat 5 (normIndex v))
    shift := some (BitVec.ofNat 4 (normalizeFields v).1)
    mantissa := some (BitVec.ofNat 4 (normalizeFields v).2) }

/-- The normalizer's signals of an input its rule does not admit: free values. DESIGN CHOICE, safe (log 11). -/
def freeNormSignals (serial draws : Nat) (g : EncSignals) : EncSignals :=
  { g with
    i := some (Config.freeBits 5 .i serial draws)
    w := some (Config.freeBits 6 .w serial draws)
    r := some (Config.freeBits 1 .r serial draws)
    wr := some (Config.freeBits 7 .wr serial draws)
    c := some (Config.freeBits 1 .c serial draws)
    ir := some (Config.freeBits 5 .ir serial draws)
    shift := some (Config.freeBits 4 .shift serial draws)
    mantissa := some (Config.freeBits 4 .mantissa serial draws) }

/-- The fields of an input in range and their packing, as signals (R51, R61). -/
def fieldSignals (v : Nat) (g : EncSignals) : EncSignals :=
  { g with
    shift := some (BitVec.ofNat 4 (encodeFields v).1)
    mantissa := some (BitVec.ofNat 4 (encodeFields v).2)
    packed := some (BitVec.ofNat 8 (packFields (encodeFields v).1 (encodeFields v).2)) }

/-- The signals inside one evaluation of ENCODE (R14, R19, R45, R61). On the saturation path `shift` and `mantissa` are 15
(R62); on the small-value path `i` is MSBSCAN's (R54); on the normalizer path all are R59's. A signal of a path that was
not selected is given no value (R65, U8). DESIGN CHOICE, safe (log 13). -/
def encodeSignals (v : Nat) : EncSignals :=
  if v > Config.cMax then { EncSignals.absent with shift := some 15, mantissa := some 15 }
  else if v < 32 then fieldSignals v { EncSignals.absent with i := some (BitVec.ofNat 5 (msbScan v)) }
  else fieldSignals v (normSignals v .absent)

/-- The signals inside one evaluation of DECODE (R20, R52). -/
def unpackSignals (b : Nat) : DecSignals where
  s := some (BitVec.ofNat 4 (shiftField b))
  m := some (BitVec.ofNat 4 (mantissaField b))

/-! ### One evaluation of a datapath, and what remains of it (R18, R19, R96) -/

/-- One evaluation of the encoder: the signals inside it and the outputs it yields. -/
structure EncEvaluation where
  sig : EncSignals
  byte : Byte
  exact : Bool
  deriving DecidableEq, Repr

/-- One evaluation of the decoder. -/
structure DecEvaluation where
  sig : DecSignals
  value : DecValue
  deriving DecidableEq, Repr

/-- ENCODE evaluated on a driven value (R61). -/
def evalEncode (v : EncValue) : EncEvaluation where
  sig := encodeSignals v.toNat
  byte := (encodeResult v).1
  exact := (encodeResult v).2

/-- DECODE evaluated on a driven byte (R72). -/
def evalDecode (b : Byte) : DecEvaluation where
  sig := unpackSignals b.toNat
  value := decodeResult Config.wOut b

/-- The encoder holds `v` and drives the outputs of an evaluation, settled. The evaluation is over, so its signals are
gone (R19). -/
def settleEnc (v : EncValue) (e : EncEvaluation) (s : State) : State :=
  { s with enc :=
    { s.enc with value := v, phase := .settled, byte := e.byte, exact := e.exact, sig := .absent } }

/-- The decoder holds `b` and drives the output of an evaluation, settled. -/
def settleDec (b : Byte) (e : DecEvaluation) (s : State) : State :=
  { s with dec := { s.dec with byte := b, phase := .settled, value := e.value, sig := .absent } }

/-! ### Sampling the outputs (R25, R92, R95) -/

/-- What the host may observe of the encoder: its outputs, only once it has settled (R92, R95). Sampling changes nothing
(R31). -/
def sampleEnc (s : State) : Option (Byte × Bool) :=
  if s.enc.phase = .settled then some (s.enc.byte, s.enc.exact) else none

/-- What the host may observe of the decoder (R92, R95). -/
def sampleDec (s : State) : Option DecValue :=
  if s.dec.phase = .settled then some s.dec.value else none

/-! ### The operations that are presented (R44) -/

/-- The value on `ENC_VALUE`, once the host has driven one (R92). -/
def encDriven (s : State) : Option EncValue :=
  if s.enc.phase = .undriven then none else some s.enc.value

/-- The byte on `DEC_BYTE`, once the host has driven one. -/
def decDriven (s : State) : Option Byte :=
  if s.dec.phase = .undriven then none else some s.dec.byte

/-- The transactions on the ports: one for each input that is driven (R44). -/
def presented (s : State) : List PortWord :=
  ((encDriven s).map PortWord.encValue).toList ++ ((decDriven s).map PortWord.decByte).toList

end Sys2Proof.Machine
end

