-- ==== Sys2Proof/Machine/Decoder.lean ====
section
/-! DEFINITION. The meaning of DECODE (`spec/43_decoder.md`). -/

namespace Sys2Proof.Machine

/-- DECODE (R72): one atomic step that drives `DEC_BYTE` with `b`, waits `T_SETTLE` and leaves `DEC_VALUE` settled
(R49, R96). It reads no state (R13, R77). -/
def execDecode (b : Byte) (s : State) : Host.Outcome State Fault Refusal :=
  .next (settleDec b (evalDecode b) s)

end Sys2Proof.Machine
end

