-- ==== Sys2Proof/Machine/Encoder.lean ====
section
/-! DEFINITION. The meaning of ENCODE (`spec/42_encoder.md`). -/

namespace Sys2Proof.Machine

/-- ENCODE (R61): one atomic step that drives `ENC_VALUE` with `v`, waits `T_SETTLE` and leaves `ENC_BYTE` and `ENC_EXACT`
settled (R49, R96). It reads no state (R13). -/
def execEncode (v : EncValue) (s : State) : Host.Outcome State Fault Refusal :=
  .next (settleEnc v (evalEncode v) s)

end Sys2Proof.Machine
end

