-- ==== Sys2Proof/Machine/Normalizer.lean ====
section
/-! DEFINITION. The meanings of the normalizer's stages (`spec/41_normalizer.md`). Each is the stage alone, as a part of an
evaluation under way: it writes its result signals and no port (R45). No flag, no exception. Where the operands are not
those the rule admits, the spec states no result: the stage still runs and its result signals are free values.
DESIGN CHOICE, safe (log 11). -/

namespace Sys2Proof.Machine

/-- MSBSCAN (R54). DEDUCED, unsafe for operands of 2^20 or more (log 12): every bit pattern is scanned, since only bits
19 down to 4 take part. -/
def execMsbscan (v : EncValue) (s : State) : Host.Outcome State Fault Refusal :=
  .next (setEncSig { s.enc.sig with i := some (BitVec.ofNat 5 (msbScan v.toNat)) } s)

/-- WINDOW (R55). -/
def execWindow (v : EncValue) (i : BitVec 5) (s : State) : Host.Outcome State Fault Refusal :=
  if windowAdmits v.toNat i.toNat then
    .next (setEncSig { s.enc.sig with w := some (BitVec.ofNat 6 (windowBits v.toNat i.toNat)) } s)
  else
    .next (drawEnc (setEncSig { s.enc.sig with w := some (Config.freeBits 6 .w s.serial s.enc.draws) } s))

/-- ROUND (R56). -/
def execRound (w : BitVec 6) (s : State) : Host.Outcome State Fault Refusal :=
  if roundAdmits w.toNat then
    .next (setEncSig { s.enc.sig with
      r := some (BitVec.ofNat 1 (roundBit w.toNat)), wr := some (BitVec.ofNat 7 (roundedWindow w.toNat)) } s)
  else
    .next (drawEnc (setEncSig { s.enc.sig with
      r := some (Config.freeBits 1 .r s.serial s.enc.draws)
      wr := some (Config.freeBits 7 .wr s.serial s.enc.draws) } s))

/-- RENORM (R57). `wr` is not shifted down on a carry. -/
def execRenorm (wr : BitVec 7) (i : BitVec 5) (s : State) : Host.Outcome State Fault Refusal :=
  if renormAdmits wr.toNat i.toNat then
    .next (setEncSig { s.enc.sig with
      c := some (BitVec.ofNat 1 (carryBit wr.toNat))
      ir := some (BitVec.ofNat 5 (renormIndex wr.toNat i.toNat)) } s)
  else
    .next (drawEnc (setEncSig { s.enc.sig with
      c := some (Config.freeBits 1 .c s.serial s.enc.draws)
      ir := some (Config.freeBits 5 .ir s.serial s.enc.draws) } s))

/-- NORMALIZE (R59): all four stages and the field extraction of R58. -/
def execNormalize (v : EncValue) (s : State) : Host.Outcome State Fault Refusal :=
  if normalizeAdmits v.toNat then
    .next (setEncSig (normSignals v.toNat s.enc.sig) s)
  else
    .next (drawEnc (setEncSig (freeNormSignals s.serial s.enc.draws s.enc.sig) s))

end Sys2Proof.Machine
end

