-- ==== Sys2Proof/Machine/Packer.lean ====
section
/-! DEFINITION. The meanings of PACK and UNPACK (`spec/40_packer.md`). Each is the stage alone, as a part of an evaluation
under way: it writes its result signals and no port (R45). No flag, no exception. -/

namespace Sys2Proof.Machine

/-- PACK (R51). -/
def execPack (shift mantissa : Nibble) (s : State) : Host.Outcome State Fault Refusal :=
  .next (setEncSig { s.enc.sig with packed := some (BitVec.ofNat 8 (packFields shift.toNat mantissa.toNat)) } s)

/-- UNPACK (R52). -/
def execUnpack (byte : Byte) (s : State) : Host.Outcome State Fault Refusal :=
  .next (setDecSig (unpackSignals byte.toNat) s)

end Sys2Proof.Machine
end

