-- ==== Sys2Proof/Machine/Dispatch.lean ====
section
/-! DEFINITION. One arm per operation of `spec/opcode_table.json` (R45). -/

namespace Sys2Proof.Machine

/-- The meaning of every operation. -/
def exec (i : Instr) (s : State) : Host.Outcome State Fault Refusal :=
  match i with
  | .encode v => Sys2Proof.Machine.execEncode v s
  | .decode b => Sys2Proof.Machine.execDecode b s
  | .pack shift mantissa => Sys2Proof.Machine.execPack shift mantissa s
  | .unpack byte => Sys2Proof.Machine.execUnpack byte s
  | .msbscan v => Sys2Proof.Machine.execMsbscan v s
  | .window v k => Sys2Proof.Machine.execWindow v k s
  | .round w => Sys2Proof.Machine.execRound w s
  | .renorm wr k => Sys2Proof.Machine.execRenorm wr k s
  | .normalize v => Sys2Proof.Machine.execNormalize v s

end Sys2Proof.Machine
end

