-- ==== Sys2Proof/Machine/Ports.lean ====
section
/-! DEFINITION. Evaluating what is on the ports (`spec/30_encoding.md` R44, `spec/70_reset_and_hazards.md` R96). -/

namespace Sys2Proof.Machine

/-- The transactions of a list, each evaluated on the state the one before it left. -/
def runPorts : List PortWord → State → Host.Outcome State Fault Refusal
  | [], s => .next s
  | p :: ps, s =>
    match exec (decodePort p) s with
    | .next t => runPorts ps t
    | .fault r => .fault r
    | .refused r => .refused r

/-- The host waits `T_SETTLE` with its inputs held: every driven datapath is evaluated and settles (R18, R95), both
together where both are driven (R33, R96). A datapath that had settled is evaluated again, with the same outputs (R98).
DESIGN CHOICE, safe (log 6); where nothing is driven there is nothing to evaluate, DESIGN CHOICE, safe (log 7). -/
def settlePorts (s : State) : Host.Outcome State Fault Refusal := runPorts (presented s) s

end Sys2Proof.Machine
end

