-- ==== Sys2Proof/Machine/Step.lean ====
section
/-! DEFINITION. One step of the block (`spec/70_reset_and_hazards.md` R96): from driven inputs to settled outputs. -/

namespace Sys2Proof.Machine

/-- A step evaluates the operations presented on the ports (R96). -/
def step (s : State) : Host.Outcome State Fault Refusal := settlePorts s

/-- The state with a bit pattern driven on the port it fits, where the next step finds it. A pattern that fits no port
cannot be presented and changes nothing (R27). DESIGN CHOICE, safe (log 8): CITB8 has no program, so this stands for
the host's drive. -/
def State.withFetchWord (s : State) (nbits w : Nat) : State :=
  match portWord nbits w with
  | .ok p => drive p s
  | .error _ => s

end Sys2Proof.Machine
end

