-- ==== Sys2Proof/Machine/Timing.lean ====
section
/-! DEFINITION. What a host may observe at an instant (`spec/10_state.md` R18, `spec/70_reset_and_hazards.md` R92, R95, R99): a
datapath's output is the function of its input once that input has been stable for `T_SETTLE`, and no observation is
given before. An input over time is a function from instants to what is driven then, `none` where nothing is.
DESIGN CHOICE, safe (log 15): time is counted in ticks from power-up. -/

namespace Sys2Proof.Machine

/-- The value an input has held through the `T_SETTLE` ticks up to `now`, if it held one. -/
def heldValue {α : Type} [DecidableEq α] (wave : Nat → Option α) (now : Nat) : Option α :=
  if (Config.tSettle : Nat) ≤ now ∧ ∀ d, d ≤ (Config.tSettle : Nat) → wave (now - d) = wave now then wave now
  else none

/-- The encoder's outputs as the host may observe them at `now`. -/
def observeEnc (wave : Nat → Option EncValue) (now : Nat) : Option (Byte × Bool) :=
  (heldValue wave now).map encodeResult

/-- The decoder's output as the host may observe it at `now`. -/
def observeDec (wave : Nat → Option Byte) (now : Nat) : Option DecValue :=
  (heldValue wave now).map (decodeResult Config.wOut)

end Sys2Proof.Machine
end

