-- ==== Sys2Proof/Machine/Transactions.lean ====
section
/-! DEFINITION. The host's transaction notation (`spec/30_encoding.md` R49) and its pseudo-transactions (R50). Control flow,
bindings and checks belong to the host; the block only evaluates. DESIGN CHOICE, safe but for the bindings (log 18): names are numbers,
and the expressions are those the programs of `spec/95_test_vectors.md` use. -/

namespace Sys2Proof.Machine

/-- A host-side expression. -/
inductive HostExpr where
  /-- A constant. -/
  | num (n : Nat)
  /-- A name bound by `LET` or `FOR`. -/
  | name (x : Nat)
  /-- `ENC.BYTE`, the last sampled `ENC_BYTE`. -/
  | encByte
  /-- `ENC.EXACT`, the last sampled `ENC_EXACT`, 0 or 1. -/
  | encExact
  /-- `DEC.VALUE`, the last sampled `DEC_VALUE`. -/
  | decValue
  /-- `a == b`, 1 when they agree. -/
  | eq (a b : HostExpr)
  /-- `a AND b`, 1 when neither is 0. -/
  | conj (a b : HostExpr)
  deriving DecidableEq, Repr

/-- A line of a host program, or two in sequence. -/
inductive Txn where
  /-- `ENCODE <value>`: drive, wait `T_SETTLE`, sample. -/
  | encode (value : HostExpr)
  /-- `DECODE <byte>`: drive, wait `T_SETTLE`, sample. -/
  | decode (byte : HostExpr)
  /-- `QUANTIZE <value>` (R50). -/
  | quantize (value : HostExpr)
  /-- `REENCODE <byte>` (R50). -/
  | reencode (byte : HostExpr)
  /-- `PAR` of an ENCODE and a DECODE, overlapping in time. -/
  | par (value byte : HostExpr)
  /-- `LET <name> = <expr>`. A later binding of a name hides an earlier one. DESIGN CHOICE, unsafe (log 18). -/
  | bind (x : Nat) (e : HostExpr)
  /-- `ASSERT <expr>`. -/
  | check (e : HostExpr)
  /-- `FOR <name> IN <lo>..<hi>`, inclusive bounds, both evaluated once, before the first turn.
  DESIGN CHOICE, unsafe (log 18). -/
  | loop (x : Nat) (lo hi : HostExpr) (body : Txn)
  /-- One line and then another. -/
  | seq (first second : Txn)
  deriving DecidableEq, Repr

/-- The host: the block, its bindings, and the outputs it last sampled. -/
structure HostState where
  block : State
  names : List (Nat × Nat)
  encSample : Option (Byte × Bool)
  decSample : Option DecValue
  deriving DecidableEq, Repr

/-- Why a host program ends early. The block itself never does (R80). -/
inductive HostStop where
  /-- An `ASSERT` that does not hold. -/
  | assertFailed
  /-- A name that nothing has bound. -/
  | unbound (x : Nat)
  /-- A use of an output before one was sampled. -/
  | notSampled
  /-- A value the port cannot present (R27). -/
  | notPresentable (value : Nat)
  /-- A step of the block that gives no next state; none does (R80). -/
  | blockStopped
  deriving DecidableEq, Repr

/-- A host that has bound and sampled nothing (`spec/95_test_vectors.md` section 4). -/
def HostState.start (s : State) : HostState where
  block := s
  names := []
  encSample := none
  decSample := none

/-- A truth value as the number the notation writes. -/
def truthNat (b : Bool) : Nat := if b then 1 else 0

/-- The value of an expression. -/
def evalExpr (h : HostState) : HostExpr → Except HostStop Nat
  | .num n => .ok n
  | .name x =>
    match h.names.lookup x with
    | some n => .ok n
    | none => .error (.unbound x)
  | .encByte =>
    match h.encSample with
    | some p => .ok p.1.toNat
    | none => .error .notSampled
  | .encExact =>
    match h.encSample with
    | some p => .ok (truthNat p.2)
    | none => .error .notSampled
  | .decValue =>
    match h.decSample with
    | some v => .ok v.toNat
    | none => .error .notSampled
  | .eq a b => do
    let x ← evalExpr h a
    let y ← evalExpr h b
    return truthNat (decide (x = y))
  | .conj a b => do
    let x ← evalExpr h a
    let y ← evalExpr h b
    return truthNat (decide (x ≠ 0 ∧ y ≠ 0))

/-- The host waits `T_SETTLE` (R49). -/
def waitSettle (h : HostState) : Except HostStop HostState :=
  match step h.block with
  | .next s => .ok { h with block := s }
  | .fault _ => .error .blockStopped
  | .refused _ => .error .blockStopped

/-- The host drives `n` on `ENC_VALUE`. -/
def hostDriveEnc (n : Nat) (h : HostState) : Except HostStop HostState :=
  if n < 2 ^ Config.wIn then .ok { h with block := driveEnc (BitVec.ofNat Config.wIn n) h.block }
  else .error (.notPresentable n)

/-- The host drives `n` on `DEC_BYTE`. -/
def hostDriveDec (n : Nat) (h : HostState) : Except HostStop HostState :=
  if n < 2 ^ Config.byteBits then .ok { h with block := driveDec (BitVec.ofNat 8 n) h.block }
  else .error (.notPresentable n)

/-- The host samples the encoder's outputs. -/
def hostSampleEnc (h : HostState) : HostState := { h with encSample := sampleEnc h.block }

/-- The host samples the decoder's output. -/
def hostSampleDec (h : HostState) : HostState := { h with decSample := sampleDec h.block }

/-- `ENCODE`: drive, wait, sample (R49). -/
def hostEncode (n : Nat) (h : HostState) : Except HostStop HostState := do
  let h ← hostDriveEnc n h
  let h ← waitSettle h
  return hostSampleEnc h

/-- `DECODE`: drive, wait, sample (R49). -/
def hostDecode (n : Nat) (h : HostState) : Except HostStop HostState := do
  let h ← hostDriveDec n h
  let h ← waitSettle h
  return hostSampleDec h

/-- `PAR`: both inputs are driven, one wait settles both, and both outputs are sampled (R33, R49). -/
def hostPar (v b : Nat) (h : HostState) : Except HostStop HostState := do
  let h ← hostDriveEnc v h
  let h ← hostDriveDec b h
  let h ← waitSettle h
  return hostSampleDec (hostSampleEnc h)

/-- `count` turns of a loop's body, the name bound to `lo`, `lo + 1` and so on. The name stays bound after the loop, to the
value of its last turn; R49 does not say how far the binding reaches. DESIGN CHOICE, unsafe for a claim about a program
that uses the name after its loop (log 18). -/
def hostLoop (body : HostState → Except HostStop HostState) (x : Nat) : Nat → Nat → HostState → Except HostStop HostState
  | _, 0, h => .ok h
  | lo, count + 1, h => do
    let h ← body { h with names := (x, lo) :: h.names }
    hostLoop body x (lo + 1) count h

/-- A host program, run (R49, R50). -/
def runTxn : Txn → HostState → Except HostStop HostState
  | .encode e, h => do
    let n ← evalExpr h e
    hostEncode n h
  | .decode e, h => do
    let n ← evalExpr h e
    hostDecode n h
  | .quantize e, h => do
    let n ← evalExpr h e
    let h ← hostEncode n h
    let b ← evalExpr h .encByte
    hostDecode b h
  | .reencode e, h => do
    let n ← evalExpr h e
    let h ← hostDecode n h
    let v ← evalExpr h .decValue
    hostEncode v h
  | .par e f, h => do
    let v ← evalExpr h e
    let b ← evalExpr h f
    hostPar v b h
  | .bind x e, h => do
    let n ← evalExpr h e
    return { h with names := (x, n) :: h.names }
  | .check e, h => do
    let n ← evalExpr h e
    if n = 0 then .error .assertFailed else .ok h
  | .loop x lo hi body, h => do
    let l ← evalExpr h lo
    let u ← evalExpr h hi
    hostLoop (fun g => runTxn body g) x l (u + 1 - l) h
  | .seq a b, h => do
    let h ← runTxn a h
    runTxn b h

end Sys2Proof.Machine
end

