-- ==== Sys2Proof/Machine/Events.lean ====
section
/-! DEFINITION. Interleavings (`spec/20_memory.md` R33, `spec/60_exceptions.md` R88): a host drives and waits in any order on
either datapath of any number of instances. Nothing is shared, so an instance is a `State` and a row of them is a list. -/

namespace Sys2Proof.Machine

/-- What can happen to one instance between two samples (R25). -/
inductive HostEvent where
  /-- The host drives an input port. -/
  | drive (p : PortWord)
  /-- The host waits `T_SETTLE`: one step. -/
  | wait
  deriving DecidableEq, Repr

/-- The state after a step; a step always has one (R80). -/
def afterStep (s : State) : State :=
  match step s with
  | .next t => t
  | .fault _ => s
  | .refused _ => s

/-- The state after an event. -/
def applyEvent (e : HostEvent) (s : State) : State :=
  match e with
  | .drive p => drive p s
  | .wait => afterStep s

/-- The state after a sequence of events, the first of the list first. -/
def runEvents : List HostEvent → State → State
  | [], s => s
  | e :: es, s => runEvents es (applyEvent e s)

/-- What is on `ENC_VALUE` after a sequence of events, where `v` was on it before. -/
def lastEncDriven : List HostEvent → Option EncValue → Option EncValue
  | [], v => v
  | .drive (.encValue u) :: es, _ => lastEncDriven es (some u)
  | .drive (.decByte _) :: es, v => lastEncDriven es v
  | .wait :: es, v => lastEncDriven es v

/-- What is on `DEC_BYTE` after a sequence of events, where `b` was on it before. -/
def lastDecDriven : List HostEvent → Option Byte → Option Byte
  | [], b => b
  | .drive (.decByte c) :: es, _ => lastDecDriven es (some c)
  | .drive (.encValue _) :: es, b => lastDecDriven es b
  | .wait :: es, b => lastDecDriven es b

/-- The events of a sequence without the drives of `DEC_BYTE`: what the encoder would see alone (R33). -/
def encoderAlone : List HostEvent → List HostEvent
  | [] => []
  | .drive (.decByte _) :: es => encoderAlone es
  | .drive (.encValue v) :: es => .drive (.encValue v) :: encoderAlone es
  | .wait :: es => .wait :: encoderAlone es

/-- The events of a sequence without the drives of `ENC_VALUE`: what the decoder would see alone (R33). -/
def decoderAlone : List HostEvent → List HostEvent
  | [] => []
  | .drive (.encValue _) :: es => decoderAlone es
  | .drive (.decByte b) :: es => .drive (.decByte b) :: decoderAlone es
  | .wait :: es => .wait :: decoderAlone es

/-- A row of `count` instances after power-up, numbered from 0 so that no two share their free values (R88). -/
def powerUpRow (count : Nat) : List State := (List.range count).map State.powerUp

/-- An event at instance `k` of a row of instances (R88). -/
def eventAt (k : Nat) (e : HostEvent) (row : List State) : List State := row.modify k (applyEvent e)

/-- A row of instances after a sequence of events, each at an instance (R33, R88). Nothing compares the free values of two
instances; those of two with the same `serial` are tied (log 19). -/
def runRow : List (Nat × HostEvent) → List State → List State
  | [], row => row
  | e :: es, row => runRow es (eventAt e.1 e.2 row)

/-- The events of a sequence that happen at instance `k`, in their order. -/
def eventsOf (k : Nat) : List (Nat × HostEvent) → List HostEvent
  | [] => []
  | e :: es => if e.1 = k then e.2 :: eventsOf k es else eventsOf k es

end Sys2Proof.Machine
end

