-- ==== Sys2Proof/Safety.lean ====
section
/-! DEFINITION. The terms claims are stated in: what holds of a state whose ports obey the spec, what two states share, and
the buckets of `spec/42_encoder.md` R71. -/

namespace Sys2Proof.Machine

/-- A settled output is the function of its input (R18), and a settled `DEC_VALUE` is in 0..507904 (R43, R73). -/
structure PortsFollowInputs (s : State) : Prop where
  encoder : s.enc.phase = .settled → (s.enc.byte, s.enc.exact) = encodeResult s.enc.value
  decoder : s.dec.phase = .settled → s.dec.value = decodeResult Config.wOut s.dec.byte
  decRange : s.dec.phase = .settled → s.dec.value.toNat ≤ Config.decMax

/-- No evaluation is under way: no internal signal exists (R19, R20). -/
structure NoSignals (s : State) : Prop where
  encoder : s.enc.sig = .absent
  decoder : s.dec.sig = .absent

/-- The encoder holds `v`, settled, drives `byte` and `exact`, and no signal of its evaluation is left. -/
structure EncoderDrives (v : EncValue) (byte : Byte) (exact : Bool) (t : State) : Prop where
  value : t.enc.value = v
  phase : t.enc.phase = .settled
  byteOut : t.enc.byte = byte
  exactOut : t.enc.exact = exact
  sig : t.enc.sig = .absent

/-- The frame of ENCODE (R14, R33): the whole decoder's side, the block, its number and the count of free values are as
before. That a `DEC_VALUE` that has not settled is as before is the model's choice (log 20). -/
structure EncodeFrame (s t : State) : Prop where
  decoder : t.dec = s.dec
  block : t.block = s.block
  serial : t.serial = s.serial
  draws : t.enc.draws = s.enc.draws

/-- The frame of a stage (R45): every port, every phase, the block and its number are as before. That an output that has
not settled is as before is the model's choice (log 20). -/
structure StageFrame (s t : State) : Prop where
  encValue : t.enc.value = s.enc.value
  encPhase : t.enc.phase = s.enc.phase
  encByte : t.enc.byte = s.enc.byte
  encExact : t.enc.exact = s.enc.exact
  decByte : t.dec.byte = s.dec.byte
  decPhase : t.dec.phase = s.dec.phase
  decValue : t.dec.value = s.dec.value
  block : t.block = s.block
  serial : t.serial = s.serial

/-- `lo(b)` of R71, in the fields `(s, m)` of the byte. -/
def bucketLo (s m : Nat) : Nat :=
  if s ≤ 1 then 16 * s + m
  else if 1 ≤ m then (16 + m) * 2 ^ (s - 1) - 2 ^ (s - 2)
  else if s = 2 then 32
  else 16 * 2 ^ (s - 1) - 2 ^ (s - 3)

/-- `hi(b)` of R71, in the fields `(s, m)` of the byte. -/
def bucketHi (s m : Nat) : Nat :=
  if s ≤ 1 then 16 * s + m
  else if 1 ≤ m then (16 + m) * 2 ^ (s - 1) + 2 ^ (s - 2) - 1
  else if s = 2 then 32
  else 16 * 2 ^ (s - 1) + 2 ^ (s - 2) - 1

/-- What can be observed is what the spec says of it: a flag of 0 goes with 0xFF and an input above CMAX (R62, R64), a flag
of 1 with an input in the byte's bucket (R64, R71), and the bits of `DEC_VALUE` from 19 on are 0 (R43). -/
structure ObservationsObeySpec (s : State) : Prop where
  saturated : ∀ byte, sampleEnc s = some (byte, false) → byte = 0xFF ∧ 516095 < s.enc.value.toNat
  inRange : ∀ byte, sampleEnc s = some (byte, true) → s.enc.value.toNat ≤ 516095 ∧
    bucketLo (byte.toNat / 16) (byte.toNat % 16) ≤ s.enc.value.toNat ∧
    s.enc.value.toNat ≤ bucketHi (byte.toNat / 16) (byte.toNat % 16)
  decoded : ∀ value, sampleDec s = some value → ∀ k, 19 ≤ k → value.getLsbD k = false

/-- The states a host can bring the block to from power-up, by driving and waiting in any order. -/
inductive Reachable : State → Prop where
  | reset : Reachable State.reset
  | event (e : HostEvent) {s : State} : Reachable s → Reachable (applyEvent e s)

end Sys2Proof.Machine
end

