-- ==== Sys2Proof/Certificates/Slice0/Obligations.lean ====
section
/-! DEFINITION. The statements for the provers, each of one rule of `spec/` or of what its rules imply. CITB8 has no
memory, no register and no program counter, so a frame speaks of ports, phases and signals. -/

open Sys2Proof Sys2Proof.Machine

/-! ### The packer -/

/-- R51. That an output that has not settled keeps its free value is the model's choice (log 20), and the counts of
free values are the model's own fields (log 4). -/
def Obligations.PackJoinsShiftAboveMantissa : Prop :=
  ∀ (shift mantissa : Nibble) (s : State),
    exec (.pack shift mantissa) s =
      .next { s with enc := { s.enc with sig := { s.enc.sig with packed := some (shift ++ mantissa) } } }

/-- R52. That an output that has not settled keeps its free value is the model's choice (log 20), and the counts of
free values are the model's own fields (log 4). -/
def Obligations.UnpackSplitsTheByte : Prop :=
  ∀ (b : Byte) (s : State),
    exec (.unpack b) s =
      .next { s with dec := { s.dec with sig := ⟨some (b.extractLsb' 4 4), some (b.extractLsb' 0 4)⟩ } }

/-- R53: both orders of the two stages. -/
def Obligations.PackAndUnpackAreInverse : Prop :=
  (∀ (shift mantissa : Nibble) (s : State), ∃ t p u,
    exec (.pack shift mantissa) s = .next t ∧ t.enc.sig.packed = some p ∧
      exec (.unpack p) t = .next u ∧ u.dec.sig = ⟨some shift, some mantissa⟩) ∧
  (∀ (b : Byte) (s : State), ∃ t sh m u,
    exec (.unpack b) s = .next t ∧ t.dec.sig = ⟨some sh, some m⟩ ∧
      exec (.pack sh m) t = .next u ∧ u.enc.sig.packed = some b)

/-! ### The normalizer -/

/-- R54: on the inputs for which the rule's own comment states the index. That an output that has not settled keeps
its free value is the model's choice (log 20), and the counts of free values are the model's own fields (log 4). -/
def Obligations.MsbScanFindsTheLeadingOne : Prop :=
  ∀ (v : EncValue) (s : State), v.toNat < 2 ^ 20 →
    ∃ k : BitVec 5,
      exec (.msbscan v) s = .next { s with enc := { s.enc with sig := { s.enc.sig with i := some k } } } ∧
      k.toNat = (if v.toNat = 0 then 4 else max 4 v.toNat.log2) ∧
      (v.toNat < 32 → k.toNat = 4) ∧ (v.toNat ≤ 516095 → k.toNat ≤ 18)

/-- The model's choice (log 12): the bits of the operand from 20 on take no part, as R45's "20 bits used" suggests. -/
def Obligations.MsbScanReadsOnlyItsWindow : Prop :=
  ∀ (u v : EncValue) (s : State), u.extractLsb' 4 16 = v.extractLsb' 4 16 →
    ∃ t, exec (.msbscan u) s = .next t ∧ exec (.msbscan v) s = .next t

/-- R55: the window is `v[i : i-5]`, with the leading one on top. That an output that has not settled keeps its free
value is the model's choice (log 20), and the counts of free values are the model's own fields (log 4). -/
def Obligations.WindowCutsSixBitsUnderTheLeadingOne : Prop :=
  ∀ (v : EncValue) (i : BitVec 5) (s : State),
    32 ≤ v.toNat → v.toNat ≤ 516095 → i.toNat = v.toNat.log2 →
      ∃ w : BitVec 6,
        exec (.window v i) s = .next { s with enc := { s.enc with sig := { s.enc.sig with w := some w } } } ∧
        w = v.extractLsb' (i.toNat - 5) 6 ∧ w.toNat = v.toNat / 2 ^ (i.toNat - 5) ∧
        5 ≤ i.toNat ∧ i.toNat ≤ 18 ∧ w.getLsbD 5 = true ∧ (i.toNat = 5 → w.toNat = v.toNat)

/-- R56: the 5-bit significand above the round bit is incremented exactly when the round bit is 1. That an output that
has not settled keeps its free value is the model's choice (log 20), and the counts of free values are the model's own
fields (log 4). -/
def Obligations.RoundIsHalfUpOnOneGuardBit : Prop :=
  ∀ (w : BitVec 6) (s : State), 32 ≤ w.toNat →
    ∃ (r : BitVec 1) (wr : BitVec 7),
      exec (.round w) s =
        .next { s with enc := { s.enc with sig := { s.enc.sig with r := some r, wr := some wr } } } ∧
      r = w.extractLsb' 0 1 ∧ wr.toNat = w.toNat + w.toNat % 2 ∧ wr.getLsbD 0 = false ∧
      wr.toNat / 2 = w.toNat / 2 + r.toNat ∧ 32 ≤ wr.toNat ∧ wr.toNat ≤ 64 ∧
      (wr.toNat = 64 ↔ w.toNat = 63)

/-- R57: the carry is bit 6 of the rounded window, and the index moves up by it; on the normalizer's inputs the carry
comes from the window 63 alone, stores a mantissa of 0 and leaves the index at most 18. That an output that has not
settled keeps its free value is the model's choice (log 20), and the counts of free values are the model's own fields
(log 4). -/
def Obligations.RenormMovesTheIndexUpByTheCarry : Prop :=
  (∀ (wr : BitVec 7) (i : BitVec 5) (s : State),
    32 ≤ wr.toNat → wr.toNat ≤ 64 → 5 ≤ i.toNat → i.toNat ≤ 18 →
      ∃ (c : BitVec 1) (ir : BitVec 5),
        exec (.renorm wr i) s =
          .next { s with enc := { s.enc with sig := { s.enc.sig with c := some c, ir := some ir } } } ∧
        (c = 1 ↔ wr.toNat = 64) ∧ c = wr.extractLsb' 6 1 ∧ ir.toNat = i.toNat + c.toNat) ∧
  (∀ (v : EncValue) (s : State), 32 ≤ v.toNat → v.toNat ≤ 516095 →
    ∃ t, exec (.normalize v) s = .next t ∧
      (t.enc.sig.c = some 1 ↔ v.extractLsb' (v.toNat.log2 - 5) 6 = 0b111111) ∧
      (t.enc.sig.c = some 1 →
        t.enc.sig.w = some 63 ∧ t.enc.sig.r = some 1 ∧ t.enc.sig.mantissa = some 0) ∧
      ∃ ir, t.enc.sig.ir = some ir ∧ ir.toNat ≤ 18)

/-- R58 and R59: every signal of the normalizer, each from the one before it, and nothing else changed. That an output
that has not settled keeps its free value is the model's choice (log 20), and the counts of free values are the
model's own fields (log 4). -/
def Obligations.NormalizeGivesEverySignal : Prop :=
  ∀ (v : EncValue) (s : State), 32 ≤ v.toNat → v.toNat ≤ 516095 →
    ∃ (i : BitVec 5) (w : BitVec 6) (r : BitVec 1) (wr : BitVec 7) (c : BitVec 1) (ir : BitVec 5)
      (shift mantissa : Nibble),
      exec (.normalize v) s = .next { s with enc := { s.enc with sig := { s.enc.sig with
        i := some i, w := some w, r := some r, wr := some wr, c := some c, ir := some ir,
        shift := some shift, mantissa := some mantissa } } } ∧
      i.toNat = v.toNat.log2 ∧
      w.toNat = v.toNat / 2 ^ (v.toNat.log2 - 5) ∧
      r.toNat = w.toNat % 2 ∧
      wr.toNat = w.toNat + r.toNat ∧
      c.toNat = wr.toNat / 64 ∧
      ir.toNat = i.toNat + c.toNat ∧
      mantissa.toNat = wr.toNat / 2 % 16 ∧
      shift.toNat + 3 = ir.toNat

/-- R60: the range of every signal, and the value the two fields stand for. -/
def Obligations.NormalizeStaysInRange : Prop :=
  ∀ (v : EncValue) (s : State), 32 ≤ v.toNat → v.toNat ≤ 516095 →
    ∃ t i w wr ir shift mantissa, exec (.normalize v) s = .next t ∧
      t.enc.sig.i = some i ∧ t.enc.sig.w = some w ∧ t.enc.sig.wr = some wr ∧ t.enc.sig.ir = some ir ∧
      t.enc.sig.shift = some shift ∧ t.enc.sig.mantissa = some mantissa ∧
      (5 ≤ i.toNat ∧ i.toNat ≤ 18) ∧ (32 ≤ w.toNat ∧ w.toNat ≤ 63) ∧
      (32 ≤ wr.toNat ∧ wr.toNat ≤ 64) ∧ (5 ≤ ir.toNat ∧ ir.toNat ≤ 18) ∧
      (2 ≤ shift.toNat ∧ shift.toNat ≤ 15) ∧ mantissa.toNat ≤ 15 ∧
      wr.toNat = (v.toNat / 2 ^ (v.toNat.log2 - 5) + 1) / 2 * 2 ∧
      (16 + mantissa.toNat) <<< (shift.toNat - 1) = wr.toNat <<< (i.toNat - 5)

/-- R59: NORMALIZE leaves the signals that MSBSCAN, WINDOW, ROUND and RENORM leave one after another, each fed by the
signals before it, and then the fields of R58. That an output that has not settled keeps its free value is the model's
choice (log 20), and the counts of free values are the model's own fields (log 4). -/
def Obligations.NormalizeRefinesItsStages : Prop :=
  ∀ (v : EncValue) (s : State), 32 ≤ v.toNat → v.toNat ≤ 516095 →
    ∃ s₁ s₂ s₃ s₄ i w wr ir,
      exec (.msbscan v) s = .next s₁ ∧ s₁.enc.sig.i = some i ∧
      exec (.window v i) s₁ = .next s₂ ∧ s₂.enc.sig.w = some w ∧
      exec (.round w) s₂ = .next s₃ ∧ s₃.enc.sig.wr = some wr ∧
      exec (.renorm wr i) s₃ = .next s₄ ∧ s₄.enc.sig.ir = some ir ∧
      exec (.normalize v) s = .next { s₄ with enc := { s₄.enc with sig := { s₄.enc.sig with
        shift := some ((ir - 3).setWidth 4), mantissa := some (wr.extractLsb' 1 4) } } }

/-- The model's choice (log 11): on operands their rules do not admit, the four bounded stages still complete, and
touch nothing but their own result signals and the count of free values, whatever the free values are. That an output
that has not settled keeps its free value is the model's choice (log 20), and the counts of free values are the
model's own fields (log 4). -/
def Obligations.BoundedStagesCompleteOnEveryOperand : Prop :=
  ∀ s : State,
    (∀ (v : EncValue) (i : BitVec 5), ∃ w n, exec (.window v i) s =
      .next { s with enc := { s.enc with sig := { s.enc.sig with w := some w }, draws := n } }) ∧
    (∀ w : BitVec 6, ∃ r wr n, exec (.round w) s =
      .next { s with enc := { s.enc with sig := { s.enc.sig with r := some r, wr := some wr }, draws := n } }) ∧
    (∀ (wr : BitVec 7) (i : BitVec 5), ∃ c ir n, exec (.renorm wr i) s =
      .next { s with enc := { s.enc with sig := { s.enc.sig with c := some c, ir := some ir }, draws := n } }) ∧
    (∀ v : EncValue, ∃ (g : EncSignals) (n : Nat), exec (.normalize v) s =
      .next { s with enc := { s.enc with sig := { g with packed := s.enc.sig.packed }, draws := n } })

/-- R45: an internal stage reaches no port. That WINDOW, ROUND, RENORM and NORMALIZE complete on operands their rules
do not admit is the model's choice (log 11), not R45's. That an output that has not settled keeps its free value is
the model's choice (log 20), and the counts of free values are the model's own fields (log 4). -/
def Obligations.StagesReachNoPort : Prop :=
  ∀ (i : Instr) (s : State), i.isExternal = false → ∃ t, exec i s = .next t ∧ StageFrame s t

/-! ### ENCODE -/

/-- R62: every input above CMAX gives the saturated pair, which decodes to 507904. That an output that has not settled
keeps its free value is the model's choice (log 20), and the counts of free values are the model's own fields (log 4).
-/
def Obligations.EncodeSaturatesAboveCmax : Prop :=
  ∀ (v : EncValue) (s : State), 516095 < v.toNat →
    ∃ t u, exec (.encode v) s = .next t ∧ EncoderDrives v 0xFF false t ∧ EncodeFrame s t ∧
      exec (.decode t.enc.byte) t = .next u ∧ u.dec.value = 507904

/-- R63 and R66: below 32 the byte is the input, with the fields R63 gives it. That an output that has not settled
keeps its free value is the model's choice (log 20), and the counts of free values are the model's own fields (log 4).
-/
def Obligations.EncodeStoresSmallValuesUnrounded : Prop :=
  ∀ (v : EncValue) (s : State), v.toNat < 32 →
    ∃ t, exec (.encode v) s = .next t ∧ EncoderDrives v (v.setWidth 8) true t ∧ EncodeFrame s t ∧
      (t.enc.byte.extractLsb' 4 4).toNat = v.toNat / 16 ∧ (t.enc.byte.extractLsb' 0 4).toNat = v.toNat % 16

/-- R59 and R61, in closed form: the byte, as a number, counts half steps up from the leading one; a carry of the
rounding moves into the shift field. That an output that has not settled keeps its free value is the model's choice
(log 20), and the counts of free values are the model's own fields (log 4). -/
def Obligations.EncodeRoundsBelowTheLeadingOne : Prop :=
  ∀ (v : EncValue) (s : State), 32 ≤ v.toNat → v.toNat ≤ 516095 →
    ∃ t, exec (.encode v) s = .next t ∧ EncoderDrives v t.enc.byte true t ∧ EncodeFrame s t ∧
      t.enc.byte.toNat + 16 =
        16 * (v.toNat.log2 - 3) + (v.toNat / 2 ^ (v.toNat.log2 - 5) + 1) / 2

/-- R64: the flag says that the input is in range, and does not say that the encoding is lossless. That an output that
has not settled keeps its free value is the model's choice (log 20), and the counts of free values are the model's own
fields (log 4). -/
def Obligations.ExactFlagMeansInRange : Prop :=
  (∀ (v : EncValue) (s : State), ∃ t, exec (.encode v) s = .next t ∧ EncodeFrame s t ∧
    (t.enc.exact = true ↔ v.toNat ≤ 516095)) ∧
  (∀ s : State, ∃ t u, exec (.encode 33) s = .next t ∧ t.enc.exact = true ∧ t.enc.byte = 0x21 ∧
    exec (.decode t.enc.byte) t = .next u ∧ u.dec.value = 34)

/-- R61: the three paths in the rule's order, each through the stages that R14 composes, with the signals of R19
inside the evaluation: saturation; PACK of the small value's fields; NORMALIZE and then PACK, which leave the signals
inside the evaluation. That an output that has not settled keeps its free value is the model's choice (log 20), and
the counts of free values are the model's own fields (log 4). -/
def Obligations.EncodeRefinesItsStages : Prop :=
  ∀ (v : EncValue) (s : State), ∃ t, exec (.encode v) s = .next t ∧ EncodeFrame s t ∧
    (516095 < v.toNat → EncoderDrives v 0xFF false t) ∧
    (v.toNat < 16 → ∃ p b, exec (.pack 0 (v.setWidth 4)) s = .next p ∧ p.enc.sig.packed = some b ∧
      EncoderDrives v b true t) ∧
    (16 ≤ v.toNat → v.toNat < 32 → ∃ p b, exec (.pack 1 ((v - 16).setWidth 4)) s = .next p ∧
      p.enc.sig.packed = some b ∧ EncoderDrives v b true t) ∧
    (32 ≤ v.toNat → v.toNat ≤ 516095 →
      ∃ n sh m p b, exec (.normalize v) s = .next n ∧ n.enc.sig.shift = some sh ∧ n.enc.sig.mantissa = some m ∧
        exec (.pack sh m) n = .next p ∧ p.enc.sig.packed = some b ∧
        EncoderDrives v b true t ∧ (evalEncode v).sig = p.enc.sig)

/-! ### DECODE -/

/-- R41 and R72: the value of the two fields; the encoder's side and the count of free values are as before. That an
output that has not settled keeps its free value is the model's choice (log 20), and the counts of free values are the
model's own fields (log 4). -/
def Obligations.DecodeScalesTheSignificand : Prop :=
  ∀ (b : Byte) (s : State), ∃ value : DecValue,
    exec (.decode b) s = .next { s with dec :=
      { s.dec with byte := b, phase := .settled, value := value, sig := .absent } } ∧
    value.toNat = (if b.toNat / 16 = 0 then b.toNat % 16
      else (16 + b.toNat % 16) * 2 ^ (b.toNat / 16 - 1))

/-- R14: DECODE is UNPACK and then the decoding rule on the signals UNPACK left. -/
def Obligations.DecodeRefinesUnpackThenScale : Prop :=
  ∀ (b : Byte) (s : State), ∃ s₁ sh m t, exec (.unpack b) s = .next s₁ ∧ s₁.dec.sig = ⟨some sh, some m⟩ ∧
    (evalDecode b).sig = s₁.dec.sig ∧ exec (.decode b) s = .next t ∧
    t.dec.value.toNat = (if sh = 0 then m.toNat else (16 + m.toNat) <<< (sh.toNat - 1))

/-- R43 and R73. -/
def Obligations.DecodeStaysInRange : Prop :=
  ∀ (b : Byte) (s : State), ∃ t, exec (.decode b) s = .next t ∧ t.dec.value.toNat ≤ 507904 ∧
    (t.dec.value = 507904 ↔ b = 0xFF) ∧ ∀ k, 19 ≤ k → t.dec.value.getLsbD k = false

/-- R74. -/
def Obligations.DecodeIsStrictlyMonotone : Prop :=
  ∀ (a b : Byte) (s s' : State), a.toNat < b.toNat →
    ∃ t t', exec (.decode a) s = .next t ∧ exec (.decode b) s' = .next t' ∧
      t.dec.value.toNat < t'.dec.value.toNat

/-- R76: for a shift of at least 1 the decoded values are an arithmetic run, and the next shift starts one step on; at
shift 0 the step is 1. -/
def Obligations.DecodeStepDoublesPerShift : Prop :=
  ∀ (sh : Nibble) (k : Nat) (s : State), k < 16 →
    ∃ t, exec (.decode (sh ++ BitVec.ofNat 4 k)) s = .next t ∧
      (sh.toNat = 0 → t.dec.value.toNat = k) ∧
      (1 ≤ sh.toNat → t.dec.value.toNat = 2 ^ (sh.toNat + 3) + k * 2 ^ (sh.toNat - 1) ∧
        (k = 15 → t.dec.value.toNat = 31 * 2 ^ (sh.toNat - 1) ∧
          t.dec.value.toNat + 2 ^ (sh.toNat - 1) = 2 ^ (sh.toNat + 4)))

/-! ### ENCODE and DECODE together -/

/-- R75: the decoded value, driven on `ENC_VALUE`. -/
def Obligations.ReencodingIsTheIdentity : Prop :=
  ∀ (b : Byte) (s : State), ∃ t u, exec (.decode b) s = .next t ∧
    exec (.encode (t.dec.value.setWidth Config.wIn)) t = .next u ∧ u.enc.byte = b ∧ u.enc.exact = true

/-- R67. -/
def Obligations.SmallValuesRoundTrip : Prop :=
  ∀ (v : EncValue) (s : State), v.toNat < 32 →
    ∃ t u, exec (.encode v) s = .next t ∧ exec (.decode t.enc.byte) t = .next u ∧
      u.dec.value.toNat = v.toNat

/-- R68: both bounds. -/
def Obligations.EncodingErrorIsBounded : Prop :=
  ∀ (v : EncValue) (s : State), 32 ≤ v.toNat → v.toNat ≤ 516095 →
    ∃ t u, exec (.encode v) s = .next t ∧ exec (.decode t.enc.byte) t = .next u ∧
      32 * ((u.dec.value.toNat : Int) - v.toNat).natAbs ≤ v.toNat ∧
      ((u.dec.value.toNat : Int) - v.toNat).natAbs ≤ 2 ^ (v.toNat.log2 - 5)

/-- R69: in the bytes and in the values they decode to, across CMAX too. -/
def Obligations.EncodingIsMonotone : Prop :=
  ∀ (a b : EncValue) (s s' : State), a.toNat < b.toNat →
    ∃ t t' u u', exec (.encode a) s = .next t ∧ exec (.encode b) s' = .next t' ∧
      t.enc.byte.toNat ≤ t'.enc.byte.toNat ∧
      exec (.decode t.enc.byte) t = .next u ∧ exec (.decode t'.enc.byte) t' = .next u' ∧
      u.dec.value.toNat ≤ u'.dec.value.toNat

/-- R70: the byte 0xFF is the saturated one and that of 499712..516095; only the flag tells them apart. -/
def Obligations.OnlyTheFlagTellsSaturation : Prop :=
  ∀ (v : EncValue) (s : State), ∃ t u, exec (.encode v) s = .next t ∧
    exec (.decode t.enc.byte) t = .next u ∧
    (v.toNat ≤ 516095 → t.enc.exact = true) ∧
    (516095 < v.toNat → t.enc.exact = false ∧ u.dec.value = 507904) ∧
    (t.enc.byte = 0xFF ↔ 499712 ≤ v.toNat)

/-- R71: the inputs of each byte are the interval of the rule's table; the intervals partition 0..CMAX; an input is
encoded without loss exactly when some byte decodes to it. -/
def Obligations.BucketsAreTheIntervalsOfTheTable : Prop :=
  (∀ (b : Byte) (v : EncValue) (s : State), v.toNat ≤ 516095 →
    ∃ t, exec (.encode v) s = .next t ∧
      (t.enc.byte = b ↔ bucketLo (b.toNat / 16) (b.toNat % 16) ≤ v.toNat ∧
        v.toNat ≤ bucketHi (b.toNat / 16) (b.toNat % 16))) ∧
  (∀ n : Nat, n ≤ 516095 → ∃! b : Byte, bucketLo (b.toNat / 16) (b.toNat % 16) ≤ n ∧
    n ≤ bucketHi (b.toNat / 16) (b.toNat % 16)) ∧
  bucketHi 15 15 = 516095 ∧
  (∀ (v : EncValue) (s : State), v.toNat ≤ 516095 →
    ∃ t u, exec (.encode v) s = .next t ∧ exec (.decode t.enc.byte) t = .next u ∧
      (u.dec.value.toNat = v.toNat ↔
        ∃ (b : Byte) (s' u' : State), exec (.decode b) s' = .next u' ∧ u'.dec.value.toNat = v.toNat))

/-- R50 and R75: an input that has been quantized is quantized to itself. -/
def Obligations.QuantizingTwiceIsQuantizingOnce : Prop :=
  ∀ (v : EncValue) (s : State), ∃ t u t' u',
    exec (.encode v) s = .next t ∧ exec (.decode t.enc.byte) t = .next u ∧
    exec (.encode (u.dec.value.setWidth Config.wIn)) u = .next t' ∧
    exec (.decode t'.enc.byte) t' = .next u' ∧
    t'.enc.byte = t.enc.byte ∧ t'.enc.exact = true ∧ u'.dec.value = u.dec.value

/-- R50: the two pseudo-transactions, run by a host in any state, sample what their expansions give. -/
def Obligations.PseudoTransactionsExpand : Prop :=
  ∀ h : HostState,
    (∀ v : EncValue, ∃ t u h', exec (.encode v) h.block = .next t ∧ exec (.decode t.enc.byte) t = .next u ∧
      runTxn (.quantize (.num v.toNat)) h = .ok h' ∧
      h'.encSample = some (t.enc.byte, t.enc.exact) ∧ h'.decSample = some u.dec.value) ∧
    (∀ b : Byte, ∃ t u h', exec (.decode b) h.block = .next t ∧
      exec (.encode (t.dec.value.setWidth Config.wIn)) t = .next u ∧
      runTxn (.reencode (.num b.toNat)) h = .ok h' ∧
      h'.decSample = some t.dec.value ∧ h'.encSample = some (u.enc.byte, u.enc.exact))

/-- R5: at every legal pair of widths the codec is the one the machine runs at its own. -/
def Obligations.CodecIsTheSameAtEveryLegalWidth : Prop :=
  ∀ wIn wOut : Nat, 19 ≤ wIn → 19 ≤ wOut →
    (∀ (u : BitVec wIn) (v : EncValue) (s : State), u.toNat = v.toNat →
      ∃ t, exec (.encode v) s = .next t ∧ encodeResult u = (t.enc.byte, t.enc.exact)) ∧
    (∀ u : BitVec wIn, 516095 < u.toNat → encodeResult u = (0xFF, false)) ∧
    (∀ (b : Byte) (s : State), ∃ t, exec (.decode b) s = .next t ∧
      (decodeResult wOut b).toNat = t.dec.value.toNat ∧
      encodeResult ((decodeResult wOut b).setWidth wIn) = (b, true) ∧
      ∀ k, 19 ≤ k → (decodeResult wOut b).getLsbD k = false)

/-! ### No fault, no refusal, one outcome -/

/-- R80 for ENCODE and DECODE. That the bounded stages complete on operands their rules do not admit is the model's choice
(log 11), and so is that a step with nothing presented answers a next state (log 7). -/
def Obligations.NothingFaultsOrIsRefused : Prop :=
  (∀ (i : Instr) (s : State), ∃ t, exec i s = .next t) ∧ (∀ s : State, ∃ t, step s = .next t)

/-- R31: an operation that is repeated changes nothing at all. That an output that has not settled keeps its free
value is the model's choice (log 20), and the counts of free values are the model's own fields (log 4). -/
def Obligations.RepeatingAnOperationChangesNothing : Prop :=
  (∀ (v : EncValue) (s : State), ∃ t, exec (.encode v) s = .next t ∧ exec (.encode v) t = .next t) ∧
  (∀ (b : Byte) (s : State), ∃ t, exec (.decode b) s = .next t ∧ exec (.decode b) t = .next t)

/-- R98 (and R13, R18): the outputs are a function of the input alone, whatever the state the operation starts in. -/
def Obligations.OutputsDependOnlyOnTheInput : Prop :=
  ∀ s s' : State,
    (∀ v : EncValue, ∃ t t', exec (.encode v) s = .next t ∧ exec (.encode v) s' = .next t' ∧
      t.enc.byte = t'.enc.byte ∧ t.enc.exact = t'.enc.exact ∧
      sampleEnc t = some (t.enc.byte, t.enc.exact) ∧ sampleEnc t' = sampleEnc t) ∧
    (∀ b : Byte, ∃ t t', exec (.decode b) s = .next t ∧ exec (.decode b) s' = .next t' ∧
      t.dec.value = t'.dec.value ∧ sampleDec t = some t.dec.value ∧ sampleDec t' = sampleDec t)

/-! ### Both datapaths, and many blocks -/

/-- R33 and R77: ENCODE and DECODE, in either order, lead to one and the same state. -/
def Obligations.EncodeAndDecodeCommute : Prop :=
  ∀ (v : EncValue) (b : Byte) (s : State), ∃ t t' u,
    exec (.encode v) s = .next t ∧ exec (.decode b) t = .next u ∧
    exec (.decode b) s = .next t' ∧ exec (.encode v) t' = .next u

/-- R33, R82, R96: with both inputs driven, in either order, ONE step leaves each datapath with the result it has
alone. -/
def Obligations.OverlappingTransactionsKeepTheirResults : Prop :=
  ∀ (v : EncValue) (b : Byte) (s s' : State),
    (s' = driveDec b (driveEnc v s) ∨ s' = driveEnc v (driveDec b s)) →
      ∃ u tv tb, step s' = .next u ∧ exec (.encode v) s = .next tv ∧ exec (.decode b) s = .next tb ∧
        EncoderDrives v tv.enc.byte tv.enc.exact u ∧ sampleEnc u = sampleEnc tv ∧
        u.dec.byte = b ∧ u.dec.value = tb.dec.value ∧ sampleDec u = sampleDec tb

/-- R14, R33, R88: after any sequence of drives and waits each datapath shows what its own drives and the waits alone bring
about, holds the same input, and has settled or not as it would alone. Nothing is said of an output before it settles. -/
def Obligations.EachDatapathRunsAsIfAlone : Prop :=
  ∀ (es : List HostEvent) (s : State),
    (sampleEnc (runEvents es s) = sampleEnc (runEvents (encoderAlone es) s) ∧
      encDriven (runEvents es s) = encDriven (runEvents (encoderAlone es) s) ∧
      (runEvents es s).enc.phase = (runEvents (encoderAlone es) s).enc.phase) ∧
    (sampleDec (runEvents es s) = sampleDec (runEvents (decoderAlone es) s) ∧
      decDriven (runEvents es s) = decDriven (runEvents (decoderAlone es) s) ∧
      (runEvents es s).dec.phase = (runEvents (decoderAlone es) s).dec.phase)

/-- R33: after any sequence of drives and waits an output that can be observed is the one its operation gives on what was
last driven on its own input; and after a wait at the end it can be observed, where anything was driven. -/
def Obligations.EveryInterleavingKeepsResults : Prop :=
  ∀ (es : List HostEvent) (s : State),
    (PortsFollowInputs s →
      (sampleEnc (runEvents es s) = none ∨ ∃ v t, lastEncDriven es (encDriven s) = some v ∧
        exec (.encode v) s = .next t ∧ sampleEnc (runEvents es s) = sampleEnc t) ∧
      (sampleDec (runEvents es s) = none ∨ ∃ b t, lastDecDriven es (decDriven s) = some b ∧
        exec (.decode b) s = .next t ∧ sampleDec (runEvents es s) = sampleDec t)) ∧
    (∀ v, lastEncDriven es (encDriven s) = some v → ∃ t, exec (.encode v) s = .next t ∧
      sampleEnc (runEvents (es ++ [.wait]) s) = sampleEnc t) ∧
    (∀ b, lastDecDriven es (decDriven s) = some b → ∃ t, exec (.decode b) s = .next t ∧
      sampleDec (runEvents (es ++ [.wait]) s) = sampleDec t)

/-- R33, R88: in a row of instances, whatever happens at any of them, instance `k` shows nothing or what its operations give
on what was last driven at `k`; and after a wait at `k` it shows that. -/
def Obligations.EachInstanceShowsItsOwnResults : Prop :=
  ∀ (es : List (Nat × HostEvent)) (row : List State) (k : Nat) (s : State),
    row[k]? = some s → PortsFollowInputs s →
      ∃ t t', (runRow es row)[k]? = some t ∧ (runRow (es ++ [(k, .wait)]) row)[k]? = some t' ∧
        (sampleEnc t = none ∨ ∃ v u, lastEncDriven (eventsOf k es) (encDriven s) = some v ∧
          exec (.encode v) s = .next u ∧ sampleEnc t = sampleEnc u) ∧
        (sampleDec t = none ∨ ∃ b u, lastDecDriven (eventsOf k es) (decDriven s) = some b ∧
          exec (.decode b) s = .next u ∧ sampleDec t = sampleDec u) ∧
        (∀ v, lastEncDriven (eventsOf k es) (encDriven s) = some v →
          ∃ u, exec (.encode v) s = .next u ∧ sampleEnc t' = sampleEnc u) ∧
        (∀ b, lastDecDriven (eventsOf k es) (decDriven s) = some b →
          ∃ u, exec (.decode b) s = .next u ∧ sampleDec t' = sampleDec u)

/-! ### Driving, settling and reset -/

/-- R95 and R92: a drive that changes an input hides that datapath's outputs and leaves the other side as it was; one
that does not change it changes nothing (R18); the next step settles it. The phase that hides the outputs is the
model's own field (log 3). That an output that has not settled keeps its free value is the model's choice (log 20),
and the counts of free values are the model's own fields (log 4). -/
def Obligations.DrivingHidesItsOwnOutputsUntilAStep : Prop :=
  (∀ (v : EncValue) (s : State),
    (s.enc.phase = .undriven ∨ s.enc.value ≠ v → sampleEnc (driveEnc v s) = none) ∧
    (s.enc.phase ≠ .undriven → s.enc.value = v → driveEnc v s = s) ∧
    (driveEnc v s).dec = s.dec ∧
    ∃ t, step (driveEnc v s) = .next t ∧ sampleEnc t = some (encodeResult v)) ∧
  (∀ (b : Byte) (s : State),
    (s.dec.phase = .undriven ∨ s.dec.byte ≠ b → sampleDec (driveDec b s) = none) ∧
    (s.dec.phase ≠ .undriven → s.dec.byte = b → driveDec b s = s) ∧
    (driveDec b s).enc = s.enc ∧
    ∃ t, step (driveDec b s) = .next t ∧ sampleDec t = some (decodeResult Config.wOut b))

/-- R92: right after power-up there is no observation of any output. The undriven inputs' values (log 5) play no part. -/
def Obligations.NothingIsObservableAtReset : Prop :=
  sampleEnc State.reset = none ∧ sampleDec State.reset = none ∧ presented State.reset = []

/-- R92, R95 and R99, on both datapaths: an input held for `T_SETTLE` is observed as the outputs a step leaves for it,
whatever `T_SETTLE` is; before `T_SETTLE` has passed since power-up or since a change there is no observation. Instants as
ticks since power-up are the model's choice (log 15). -/
def Obligations.TimedObservationIsTheSettledOutput : Prop :=
  (∀ (wave : Nat → Option EncValue) (now : Nat) (v : EncValue) (s : State),
    ((∀ d, d ≤ (Config.tSettle : Nat) → wave (now - d) = some v) → (Config.tSettle : Nat) ≤ now →
      ∃ t, step (driveEnc v s) = .next t ∧ observeEnc wave now = sampleEnc t) ∧
    (∀ d, d ≤ (Config.tSettle : Nat) → wave (now - d) ≠ wave now → observeEnc wave now = none) ∧
    (now < (Config.tSettle : Nat) → observeEnc wave now = none)) ∧
  (∀ (wave : Nat → Option Byte) (now : Nat) (b : Byte) (s : State),
    ((∀ d, d ≤ (Config.tSettle : Nat) → wave (now - d) = some b) → (Config.tSettle : Nat) ≤ now →
      ∃ t, step (driveDec b s) = .next t ∧ observeDec wave now = sampleDec t) ∧
    (∀ d, d ≤ (Config.tSettle : Nat) → wave (now - d) ≠ wave now → observeDec wave now = none) ∧
    (now < (Config.tSettle : Nat) → observeDec wave now = none))

/-- R44 and R96: a step runs the operation of the driven port word; with both inputs driven it runs both, one on the
state the other left; with none it leaves the state as it is (the model's choices, log 6 and log 7). After any bit
pattern that decodes is driven, the next step does what its operation does. That an output that has not settled keeps
its free value is the model's choice (log 20), and the counts of free values are the model's own fields (log 4). -/
def Obligations.StepRunsThePresentedOperation : Prop :=
  (∀ s : State, presented s = [] → step s = .next s) ∧
  (∀ (p : PortWord) (s : State), presented s = [p] → step s = exec (decodePort p) s) ∧
  (∀ (p q : PortWord) (s : State), presented s = [p, q] →
    ∃ t, exec (decodePort p) s = .next t ∧ step s = exec (decodePort q) t) ∧
  (∀ (n w : Nat) (i : Instr) (s : State), decodeWord n w = .ok i →
    ∃ t u, step (s.withFetchWord n w) = .next t ∧ exec i (s.withFetchWord n w) = .next u ∧
      (∀ v, i = .encode v → t.enc = u.enc) ∧ (∀ b, i = .decode b → t.dec = u.dec) ∧
      (presented s = [] → t = u))

/-- R19 and R20: the internal signals exist only inside an evaluation. ENCODE and DECODE leave none of theirs, a step and a
drive bring none about, and in no state a host can reach does one exist. -/
def Obligations.SignalsEndWithTheirEvaluation : Prop :=
  (∀ (v : EncValue) (s : State), ∃ t, exec (.encode v) s = .next t ∧ t.enc.sig = .absent) ∧
  (∀ (b : Byte) (s : State), ∃ t, exec (.decode b) s = .next t ∧ t.dec.sig = .absent) ∧
  (∀ s t : State, NoSignals s → step s = .next t → NoSignals t) ∧
  (∀ (p : PortWord) (s : State), NoSignals s → NoSignals (drive p s)) ∧
  (∀ s : State, Reachable s → NoSignals s)

/-! ### The encoding of transactions -/

/-- R44, R45, R49: the bits of a transaction decode to its operation, every decoded operation is one a port can invoke,
and it is the one those bits encode. That a pattern's width tells its port is the model's choice (log 9). -/
def Obligations.TransactionBitsDecodeToTheirOperation : Prop :=
  (∀ i : Instr, i.isExternal = true →
    ∃ p, encodeInstr i = some p ∧ decodeWord p.nbits p.bits = .ok i) ∧
  (∀ (n w : Nat) (i : Instr), decodeWord n w = .ok i →
    i.isExternal = true ∧ i.wf = true ∧ ∃ p, encodeInstr i = some p ∧ p.nbits = n ∧ p.bits = w) ∧
  (∀ i : Instr, i.isExternal = false → encodeInstr i = none)

/-- R27: every value of either input port is an operation; a pattern no port can present is rejected by name (the model's
choice, log 9). -/
def Obligations.EveryPortValueIsLegal : Prop :=
  (∀ w, w < 2 ^ Config.wIn → decodeWord Config.wIn w = .ok (.encode (BitVec.ofNat Config.wIn w))) ∧
  (∀ w, w < 2 ^ 8 → decodeWord 8 w = .ok (.decode (BitVec.ofNat 8 w))) ∧
  (∀ w, 2 ^ Config.wIn ≤ w → decodeWord Config.wIn w = .error (.doesNotFit Config.wIn w)) ∧
  (∀ w, 2 ^ 8 ≤ w → decodeWord 8 w = .error (.doesNotFit 8 w)) ∧
  (∀ n w, n ≠ Config.wIn → n ≠ 8 → decodeWord n w = .error (.noPortOfWidth n))

/-- The words of programs P1 and P4 of `spec/95_test_vectors.md` decode to their transactions. -/
def Obligations.WrittenWordsDecode : Prop :=
  decodeWord 32 0x00000028 = .ok (.encode 40) ∧ decodeWord 8 0b00100100 = .ok (.decode 0x24) ∧
  decodeWord 32 0xFFFFFFFF = .ok (.encode 4294967295) ∧ decodeWord 32 0x0007C000 = .ok (.encode 507904) ∧
  decodeWord 8 0b11111111 = .ok (.decode 0xFF)

/-! ### Invariants -/

/-- R18: every step, every operation and every drive keeps each settled output equal to the function of its input. -/
def Obligations.PortsFollowInputsIsInductive : Prop :=
  (∀ s t : State, PortsFollowInputs s → step s = .next t → PortsFollowInputs t) ∧
  (∀ (i : Instr) (s t : State), PortsFollowInputs s → exec i s = .next t → PortsFollowInputs t) ∧
  (∀ (p : PortWord) (s : State), PortsFollowInputs s → PortsFollowInputs (drive p s))

/-- The machine after power-up meets the invariant, and holds no signal. -/
def Obligations.ResetMeetsPortsFollowInputs : Prop := PortsFollowInputs State.reset ∧ NoSignals State.reset

/-- R43, R62, R64, R71: every step, every operation and every drive keeps what can be observed as the spec says it is. -/
def Obligations.ObservationsObeySpecIsInductive : Prop :=
  (∀ s t : State, ObservationsObeySpec s → step s = .next t → ObservationsObeySpec t) ∧
  (∀ (i : Instr) (s t : State), ObservationsObeySpec s → exec i s = .next t → ObservationsObeySpec t) ∧
  (∀ (p : PortWord) (s : State), ObservationsObeySpec s → ObservationsObeySpec (drive p s))

/-- The machine after power-up meets it: it shows nothing. -/
def Obligations.ResetMeetsObservationsObeySpec : Prop := ObservationsObeySpec State.reset

/-- R18, R43, R70: in every state a host can reach from power-up, what can be observed is what the spec says it is. -/
def Obligations.ReachableObservationsObeyTheSpec : Prop := ∀ s : State, Reachable s → ObservationsObeySpec s
end

