-- ==== Sys2Proof/Laws/Stages.lean ====
section
/-! SUPPORT. One lemma for each stage's arithmetic: the shifts and masks of the spec as division and remainder, and the
paths of the encoder. -/

namespace Sys2Proof.Machine

/-! ### The packer -/

theorem mask_nibble (n : Nat) : n &&& 0xF = n % 16 := Nat.and_two_pow_sub_one_eq_mod n 4

theorem mantissaField_eq_mod (b : Nat) : mantissaField b = b % 16 := mask_nibble b

theorem shiftField_eq_div_mod (b : Nat) : shiftField b = b / 16 % 16 := by
  rw [shiftField, mask_nibble, Nat.shiftRight_eq_div_pow]

theorem packFields_eq_sum {s m : Nat} (hs : s < 16) (hm : m < 16) : packFields s m = 16 * s + m := by
  rw [packFields, mask_nibble, mask_nibble, Nat.mod_eq_of_lt hs, Nat.mod_eq_of_lt hm,
    Nat.shiftLeft_eq, Nat.mul_comm s, ← Nat.two_pow_add_eq_or_of_lt hm]

theorem packFields_lt (s m : Nat) : packFields s m < 256 := by
  have h : packFields s m = packFields (s % 16) (m % 16) := by
    simp only [packFields, mask_nibble, Nat.mod_mod]
  rw [h, packFields_eq_sum (Nat.mod_lt _ (by decide)) (Nat.mod_lt _ (by decide))]
  omega

/-! ### The flags -/

theorem exactFlag_iff (v : Nat) : exactFlag v = true ↔ v ≤ Config.cMax := decide_eq_true_iff

theorem roundBit_eq_mod (w : Nat) : roundBit w = w % 2 := Nat.and_one_is_mod w

theorem carryBit_eq_div_mod (wr : Nat) : carryBit wr = wr / 64 % 2 := by
  rw [carryBit, Nat.and_one_is_mod, Nat.shiftRight_eq_div_pow]

/-! ### The normalizer -/

theorem windowBits_eq_div (v i : Nat) : windowBits v i = v / 2 ^ (i - 5) := Nat.shiftRight_eq_div_pow v (i - 5)

theorem roundedWindow_eq_add_mod (w : Nat) : roundedWindow w = w + w % 2 := by
  rw [roundedWindow, roundBit_eq_mod]

theorem renormIndex_eq_add (wr i : Nat) : renormIndex wr i = i + wr / 64 % 2 := by
  rw [renormIndex, carryBit_eq_div_mod]

theorem mantissaOf_eq_div_mod (wr : Nat) : mantissaOf wr = wr / 2 % 16 := by
  rw [mantissaOf, mask_nibble, Nat.shiftRight_eq_div_pow, pow_one]

/-- The scan answers 4, or the index of a set bit among those scanned above which no scanned bit is set. -/
theorem msbScanFrom_cases (v n : Nat) :
    (msbScanFrom v n = 4 ∧ ∀ j, j < n → v.testBit (j + 5) = false) ∨
      ∃ k, k < n ∧ msbScanFrom v n = k + 5 ∧ v.testBit (k + 5) = true ∧
        ∀ j, k < j → j < n → v.testBit (j + 5) = false := by
  induction n with
  | zero => exact .inl ⟨rfl, fun j hj => absurd hj (Nat.not_lt_zero j)⟩
  | succ n ih =>
    by_cases hb : v.testBit (n + 5) = true
    · exact .inr ⟨n, Nat.lt_succ_self n, by simp [msbScanFrom, hb], hb, fun j hk hj => by omega⟩
    · have hb' : v.testBit (n + 5) = false := by simpa using hb
      have hstep : msbScanFrom v (n + 1) = msbScanFrom v n := by simp [msbScanFrom, hb']
      rcases ih with ⟨h4, hz⟩ | ⟨k, hk, hs, ht, hz⟩
      · refine .inl ⟨hstep.trans h4, fun j hj => ?_⟩
        rcases Nat.lt_succ_iff_lt_or_eq.mp hj with h | rfl
        · exact hz j h
        · exact hb'
      · refine .inr ⟨k, Nat.lt_succ_of_lt hk, hstep.trans hs, ht, fun j hkj hj => ?_⟩
        rcases Nat.lt_succ_iff_lt_or_eq.mp hj with h | rfl
        · exact hz j hkj h
        · exact hb'

/-- The scan's index lies in its window (R54). -/
theorem msbScan_mem_window (v : Nat) : 4 ≤ msbScan v ∧ msbScan v ≤ 19 := by
  rcases msbScanFrom_cases v 15 with ⟨h, -⟩ | ⟨k, hk, h, -⟩ <;> rw [msbScan, h] <;> omega

/-! ### The operands a stage admits -/

theorem normalizeAdmits_iff (v : Nat) : normalizeAdmits v = true ↔ 32 ≤ v ∧ v ≤ Config.cMax := decide_eq_true_iff

theorem windowAdmits_iff (v i : Nat) :
    windowAdmits v i = true ↔ (32 ≤ v ∧ v ≤ Config.cMax) ∧ i = msbScan v := by
  simp [windowAdmits, normalizeAdmits]

theorem roundAdmits_iff (w : Nat) : roundAdmits w = true ↔ 32 ≤ w ∧ w ≤ 63 := decide_eq_true_iff

theorem renormAdmits_iff (wr i : Nat) :
    renormAdmits wr i = true ↔ (32 ≤ wr ∧ wr ≤ 64) ∧ (5 ≤ i ∧ i ≤ 18) := by
  simp [renormAdmits]

/-! ### The encoder's paths -/

theorem encodeByte_saturated {v : Nat} (h : Config.cMax < v) : encodeByte v = Config.byteMax := if_pos h

theorem encodeByte_inRange {v : Nat} (h : v ≤ Config.cMax) :
    encodeByte v = packFields (encodeFields v).1 (encodeFields v).2 := if_neg (Nat.not_lt.mpr h)

theorem encodeFields_shift_zero {v : Nat} (h : v < 16) : encodeFields v = (0, v) := if_pos h

theorem encodeFields_shift_one {v : Nat} (h : 16 ≤ v) (h' : v < 32) : encodeFields v = (1, v - 16) := by
  rw [encodeFields, if_neg (by omega), if_pos h']

theorem encodeFields_normalizer {v : Nat} (h : 32 ≤ v) : encodeFields v = normalizeFields v := by
  rw [encodeFields, if_neg (by omega), if_neg (by omega)]

theorem encodeByte_lt (v : Nat) : encodeByte v < 256 := by
  rcases Nat.lt_or_ge Config.cMax v with h | h
  · rw [encodeByte_saturated h]; decide
  · rw [encodeByte_inRange h]; exact packFields_lt _ _

/-! ### The decoder -/

theorem decodeNat_shift_zero {b : Nat} (h : shiftField b = 0) : decodeNat b = mantissaField b := by
  simp [decodeNat, significand, scaleShift, h]

theorem decodeNat_shift_pos {b : Nat} (h : shiftField b ≠ 0) :
    decodeNat b = (16 + mantissaField b) * 2 ^ (shiftField b - 1) := by
  simp [decodeNat, significand, scaleShift, h, Nat.shiftLeft_eq]

end Sys2Proof.Machine
end

