-- ==== Sys2Proof/Laws/State.lean ====
section
/-! SUPPORT. What each update of the state does to each field, so that no proof unfolds a record update. -/

namespace Sys2Proof.Machine

/-! ### setEncSig -/

@[simp] theorem setEncSig_enc_value (g : EncSignals) (s : State) :
    (setEncSig g s).enc.value = s.enc.value := rfl
@[simp] theorem setEncSig_enc_phase (g : EncSignals) (s : State) :
    (setEncSig g s).enc.phase = s.enc.phase := rfl
@[simp] theorem setEncSig_enc_byte (g : EncSignals) (s : State) :
    (setEncSig g s).enc.byte = s.enc.byte := rfl
@[simp] theorem setEncSig_enc_exact (g : EncSignals) (s : State) :
    (setEncSig g s).enc.exact = s.enc.exact := rfl
@[simp] theorem setEncSig_enc_sig (g : EncSignals) (s : State) :
    (setEncSig g s).enc.sig = g := rfl
@[simp] theorem setEncSig_enc_draws (g : EncSignals) (s : State) :
    (setEncSig g s).enc.draws = s.enc.draws := rfl
@[simp] theorem setEncSig_dec (g : EncSignals) (s : State) :
    (setEncSig g s).dec = s.dec := rfl
@[simp] theorem setEncSig_serial (g : EncSignals) (s : State) :
    (setEncSig g s).serial = s.serial := rfl
@[simp] theorem setEncSig_block (g : EncSignals) (s : State) :
    (setEncSig g s).block = s.block := rfl

/-! ### setDecSig -/

@[simp] theorem setDecSig_dec_byte (g : DecSignals) (s : State) :
    (setDecSig g s).dec.byte = s.dec.byte := rfl
@[simp] theorem setDecSig_dec_phase (g : DecSignals) (s : State) :
    (setDecSig g s).dec.phase = s.dec.phase := rfl
@[simp] theorem setDecSig_dec_value (g : DecSignals) (s : State) :
    (setDecSig g s).dec.value = s.dec.value := rfl
@[simp] theorem setDecSig_dec_sig (g : DecSignals) (s : State) :
    (setDecSig g s).dec.sig = g := rfl
@[simp] theorem setDecSig_dec_draws (g : DecSignals) (s : State) :
    (setDecSig g s).dec.draws = s.dec.draws := rfl
@[simp] theorem setDecSig_enc (g : DecSignals) (s : State) :
    (setDecSig g s).enc = s.enc := rfl
@[simp] theorem setDecSig_serial (g : DecSignals) (s : State) :
    (setDecSig g s).serial = s.serial := rfl
@[simp] theorem setDecSig_block (g : DecSignals) (s : State) :
    (setDecSig g s).block = s.block := rfl

/-! ### drawEnc -/

@[simp] theorem drawEnc_enc_value (s : State) :
    (drawEnc s).enc.value = s.enc.value := rfl
@[simp] theorem drawEnc_enc_phase (s : State) :
    (drawEnc s).enc.phase = s.enc.phase := rfl
@[simp] theorem drawEnc_enc_byte (s : State) :
    (drawEnc s).enc.byte = s.enc.byte := rfl
@[simp] theorem drawEnc_enc_exact (s : State) :
    (drawEnc s).enc.exact = s.enc.exact := rfl
@[simp] theorem drawEnc_enc_sig (s : State) :
    (drawEnc s).enc.sig = s.enc.sig := rfl
@[simp] theorem drawEnc_enc_draws (s : State) :
    (drawEnc s).enc.draws = s.enc.draws + 1 := rfl
@[simp] theorem drawEnc_dec (s : State) :
    (drawEnc s).dec = s.dec := rfl
@[simp] theorem drawEnc_serial (s : State) :
    (drawEnc s).serial = s.serial := rfl
@[simp] theorem drawEnc_block (s : State) :
    (drawEnc s).block = s.block := rfl

/-! ### settleEnc -/

@[simp] theorem settleEnc_enc_value (v : EncValue) (e : EncEvaluation) (s : State) :
    (settleEnc v e s).enc.value = v := rfl
@[simp] theorem settleEnc_enc_phase (v : EncValue) (e : EncEvaluation) (s : State) :
    (settleEnc v e s).enc.phase = .settled := rfl
@[simp] theorem settleEnc_enc_byte (v : EncValue) (e : EncEvaluation) (s : State) :
    (settleEnc v e s).enc.byte = e.byte := rfl
@[simp] theorem settleEnc_enc_exact (v : EncValue) (e : EncEvaluation) (s : State) :
    (settleEnc v e s).enc.exact = e.exact := rfl
@[simp] theorem settleEnc_enc_sig (v : EncValue) (e : EncEvaluation) (s : State) :
    (settleEnc v e s).enc.sig = .absent := rfl
@[simp] theorem settleEnc_enc_draws (v : EncValue) (e : EncEvaluation) (s : State) :
    (settleEnc v e s).enc.draws = s.enc.draws := rfl
@[simp] theorem settleEnc_dec (v : EncValue) (e : EncEvaluation) (s : State) :
    (settleEnc v e s).dec = s.dec := rfl
@[simp] theorem settleEnc_serial (v : EncValue) (e : EncEvaluation) (s : State) :
    (settleEnc v e s).serial = s.serial := rfl
@[simp] theorem settleEnc_block (v : EncValue) (e : EncEvaluation) (s : State) :
    (settleEnc v e s).block = s.block := rfl

/-! ### settleDec -/

@[simp] theorem settleDec_dec_byte (b : Byte) (e : DecEvaluation) (s : State) :
    (settleDec b e s).dec.byte = b := rfl
@[simp] theorem settleDec_dec_phase (b : Byte) (e : DecEvaluation) (s : State) :
    (settleDec b e s).dec.phase = .settled := rfl
@[simp] theorem settleDec_dec_value (b : Byte) (e : DecEvaluation) (s : State) :
    (settleDec b e s).dec.value = e.value := rfl
@[simp] theorem settleDec_dec_sig (b : Byte) (e : DecEvaluation) (s : State) :
    (settleDec b e s).dec.sig = .absent := rfl
@[simp] theorem settleDec_dec_draws (b : Byte) (e : DecEvaluation) (s : State) :
    (settleDec b e s).dec.draws = s.dec.draws := rfl
@[simp] theorem settleDec_enc (b : Byte) (e : DecEvaluation) (s : State) :
    (settleDec b e s).enc = s.enc := rfl
@[simp] theorem settleDec_serial (b : Byte) (e : DecEvaluation) (s : State) :
    (settleDec b e s).serial = s.serial := rfl
@[simp] theorem settleDec_block (b : Byte) (e : DecEvaluation) (s : State) :
    (settleDec b e s).block = s.block := rfl

/-! ### driveEnc and driveDec -/

/-- A drive that does not change the input changes nothing (R18, R95). -/
theorem driveEnc_of_carries {v : EncValue} {s : State} (h : encCarries v s = true) : driveEnc v s = s := if_pos h

theorem driveDec_of_carries {b : Byte} {s : State} (h : decCarries b s = true) : driveDec b s = s := if_pos h

theorem encCarries_iff (v : EncValue) (s : State) :
    encCarries v s = true ↔ s.enc.phase ≠ .undriven ∧ s.enc.value = v := decide_eq_true_iff

theorem decCarries_iff (b : Byte) (s : State) :
    decCarries b s = true ↔ s.dec.phase ≠ .undriven ∧ s.dec.byte = b := decide_eq_true_iff

/-- A drive that changes the input makes the outputs free and ends the evaluation under way. -/
theorem driveEnc_of_change {v : EncValue} {s : State} (h : encCarries v s ≠ true) :
    driveEnc v s = { s with enc :=
      { value := v, phase := .changing
        byte := Config.freeBits 8 .encByte s.serial s.enc.draws
        exact := freeFlag .encExact s.serial s.enc.draws
        sig := .absent, draws := s.enc.draws + 1 } } := if_neg h

theorem driveDec_of_change {b : Byte} {s : State} (h : decCarries b s ≠ true) :
    driveDec b s = { s with dec :=
      { byte := b, phase := .changing
        value := Config.freeBits Config.wOut .decValue s.serial s.dec.draws
        sig := .absent, draws := s.dec.draws + 1 } } := if_neg h

@[simp] theorem driveEnc_dec (v : EncValue) (s : State) : (driveEnc v s).dec = s.dec := by
  unfold driveEnc; split <;> rfl

@[simp] theorem driveEnc_serial (v : EncValue) (s : State) : (driveEnc v s).serial = s.serial := by
  unfold driveEnc; split <;> rfl

@[simp] theorem driveEnc_block (v : EncValue) (s : State) : (driveEnc v s).block = s.block := rfl

@[simp] theorem driveDec_enc (b : Byte) (s : State) : (driveDec b s).enc = s.enc := by
  unfold driveDec; split <;> rfl

@[simp] theorem driveDec_serial (b : Byte) (s : State) : (driveDec b s).serial = s.serial := by
  unfold driveDec; split <;> rfl

@[simp] theorem driveDec_block (b : Byte) (s : State) : (driveDec b s).block = s.block := rfl

@[simp] theorem driveEnc_enc_value (v : EncValue) (s : State) : (driveEnc v s).enc.value = v := by
  by_cases h : encCarries v s = true
  · rw [driveEnc_of_carries h]; exact ((encCarries_iff v s).1 h).2
  · rw [driveEnc_of_change h]

@[simp] theorem driveDec_dec_byte (b : Byte) (s : State) : (driveDec b s).dec.byte = b := by
  by_cases h : decCarries b s = true
  · rw [driveDec_of_carries h]; exact ((decCarries_iff b s).1 h).2
  · rw [driveDec_of_change h]

/-- After a drive the input is driven. -/
theorem driveEnc_enc_phase_ne (v : EncValue) (s : State) : (driveEnc v s).enc.phase ≠ .undriven := by
  by_cases h : encCarries v s = true
  · rw [driveEnc_of_carries h]; exact ((encCarries_iff v s).1 h).1
  · rw [driveEnc_of_change h]; nofun

theorem driveDec_dec_phase_ne (b : Byte) (s : State) : (driveDec b s).dec.phase ≠ .undriven := by
  by_cases h : decCarries b s = true
  · rw [driveDec_of_carries h]; exact ((decCarries_iff b s).1 h).1
  · rw [driveDec_of_change h]; nofun

end Sys2Proof.Machine
end

