-- ==== Sys2Proof/Laws/Ops.lean ====
section
/-! SUPPORT. One lemma for each shared operation: what it can answer, said once. -/

namespace Sys2Proof.Machine

/-! ### Sampling -/

theorem sampleEnc_of_settled {s : State} (h : s.enc.phase = .settled) :
    sampleEnc s = some (s.enc.byte, s.enc.exact) := if_pos h

theorem sampleDec_of_settled {s : State} (h : s.dec.phase = .settled) : sampleDec s = some s.dec.value := if_pos h

theorem sampleEnc_of_not_settled {s : State} (h : s.enc.phase ≠ .settled) : sampleEnc s = none := if_neg h

theorem sampleDec_of_not_settled {s : State} (h : s.dec.phase ≠ .settled) : sampleDec s = none := if_neg h

/-- What is sampled of the encoder depends on its side alone. -/
theorem sampleEnc_congr {s t : State} (h : s.enc = t.enc) : sampleEnc s = sampleEnc t := by
  simp only [sampleEnc, h]

theorem sampleDec_congr {s t : State} (h : s.dec = t.dec) : sampleDec s = sampleDec t := by
  simp only [sampleDec, h]

/-! ### What is driven -/

theorem encDriven_of_undriven {s : State} (h : s.enc.phase = .undriven) : encDriven s = none := if_pos h

theorem encDriven_of_driven {s : State} (h : s.enc.phase ≠ .undriven) : encDriven s = some s.enc.value := if_neg h

theorem decDriven_of_undriven {s : State} (h : s.dec.phase = .undriven) : decDriven s = none := if_pos h

theorem decDriven_of_driven {s : State} (h : s.dec.phase ≠ .undriven) : decDriven s = some s.dec.byte := if_neg h

@[simp] theorem encDriven_driveEnc (v : EncValue) (s : State) : encDriven (driveEnc v s) = some v := by
  rw [encDriven_of_driven (driveEnc_enc_phase_ne v s), driveEnc_enc_value]

@[simp] theorem decDriven_driveDec (b : Byte) (s : State) : decDriven (driveDec b s) = some b := by
  rw [decDriven_of_driven (driveDec_dec_phase_ne b s), driveDec_dec_byte]

@[simp] theorem decDriven_driveEnc (v : EncValue) (s : State) : decDriven (driveEnc v s) = decDriven s := by
  simp only [decDriven, driveEnc_dec]

@[simp] theorem encDriven_driveDec (b : Byte) (s : State) : encDriven (driveDec b s) = encDriven s := by
  simp only [encDriven, driveDec_enc]

/-! ### The step -/

/-- The encoder's side after a step: evaluated where its input is driven. -/
def stepEnc (s : State) : State :=
  match encDriven s with
  | some v => settleEnc v (evalEncode v) s
  | none => s

/-- The decoder's side after a step. -/
def stepDec (s : State) : State :=
  match decDriven s with
  | some b => settleDec b (evalDecode b) s
  | none => s

@[simp] theorem stepEnc_dec (s : State) : (stepEnc s).dec = s.dec := by
  unfold stepEnc; split <;> rfl

@[simp] theorem stepDec_enc (s : State) : (stepDec s).enc = s.enc := by
  unfold stepDec; split <;> rfl

/-- The decoder's side after a step depends on the decoder's side before it alone. -/
theorem stepDec_dec_congr {s t : State} (h : s.dec = t.dec) : (stepDec s).dec = (stepDec t).dec := by
  simp only [stepDec, decDriven, h]
  split <;> simp [settleDec, h]

/-- The encoder's side after a step depends on the encoder's side before it alone. -/
theorem stepEnc_enc_congr {s t : State} (h : s.enc = t.enc) : (stepEnc s).enc = (stepEnc t).enc := by
  simp only [stepEnc, encDriven, h]
  split <;> simp [settleEnc, h]

/-- Everything a step does: each driven datapath settles on its own input, and nothing else changes. -/
theorem step_eq (s : State) : step s = .next (stepDec (stepEnc s)) := by
  unfold step settlePorts presented stepEnc stepDec
  cases he : encDriven s <;> cases hd : decDriven s <;>
    simp_all [runPorts, decodePort, exec, execEncode, execDecode, decDriven]

/-- The encoder's side of a step's result is settled from the encoder's side alone (R14). -/
theorem step_enc {s t : State} (h : step s = .next t) : t.enc = (stepEnc s).enc := by
  rw [step_eq] at h
  cases h
  exact stepDec_enc _

/-- The decoder's side of a step's result is settled from the decoder's side alone (R14). -/
theorem step_dec {s t : State} (h : step s = .next t) : t.dec = (stepDec s).dec := by
  rw [step_eq] at h
  cases h
  exact stepDec_dec_congr (stepEnc_dec s)

/-! ### The port words -/

/-- A pattern is presented on a port exactly when that port has its width and it fits. -/
theorem portWord_eq_ok {n w : Nat} {p : PortWord} (h : portWord n w = .ok p) : p.nbits = n ∧ p.bits = w := by
  unfold portWord at h
  split at h
  · split at h
    · cases h; exact ⟨by simp [PortWord.nbits, *], Nat.mod_eq_of_lt (by assumption)⟩
    · cases h
  · split at h
    · split at h
      · cases h; exact ⟨by simp [PortWord.nbits, *], Nat.mod_eq_of_lt (by assumption)⟩
      · cases h
    · cases h

end Sys2Proof.Machine
end

