-- ==== Sys2Proof/Laws/Exec.lean ====
section
/-! SUPPORT. One lemma for each case of each meaning, and the leading one of an input in range, which every statement about
the normalizer starts from. -/

namespace Sys2Proof.Machine

/-! ### The bounded stages, on admitted operands and on others -/

theorem execWindow_of_admits {v : EncValue} {i : BitVec 5} (h : windowAdmits v.toNat i.toNat = true) (s : State) :
    execWindow v i s =
      .next (setEncSig { s.enc.sig with w := some (BitVec.ofNat 6 (windowBits v.toNat i.toNat)) } s) := if_pos h

theorem execWindow_of_not_admits {v : EncValue} {i : BitVec 5} (h : windowAdmits v.toNat i.toNat ≠ true) (s : State) :
    execWindow v i s =
      .next (drawEnc (setEncSig { s.enc.sig with w := some (Config.freeBits 6 .w s.serial s.enc.draws) } s)) := if_neg h

theorem execRound_of_admits {w : BitVec 6} (h : roundAdmits w.toNat = true) (s : State) :
    execRound w s = .next (setEncSig { s.enc.sig with
      r := some (BitVec.ofNat 1 (roundBit w.toNat))
      wr := some (BitVec.ofNat 7 (roundedWindow w.toNat)) } s) := if_pos h

theorem execRound_of_not_admits {w : BitVec 6} (h : roundAdmits w.toNat ≠ true) (s : State) :
    execRound w s = .next (drawEnc (setEncSig { s.enc.sig with
      r := some (Config.freeBits 1 .r s.serial s.enc.draws)
      wr := some (Config.freeBits 7 .wr s.serial s.enc.draws) } s)) := if_neg h

theorem execRenorm_of_admits {wr : BitVec 7} {i : BitVec 5} (h : renormAdmits wr.toNat i.toNat = true) (s : State) :
    execRenorm wr i s = .next (setEncSig { s.enc.sig with
      c := some (BitVec.ofNat 1 (carryBit wr.toNat))
      ir := some (BitVec.ofNat 5 (renormIndex wr.toNat i.toNat)) } s) := if_pos h

theorem execRenorm_of_not_admits {wr : BitVec 7} {i : BitVec 5} (h : renormAdmits wr.toNat i.toNat ≠ true) (s : State) :
    execRenorm wr i s = .next (drawEnc (setEncSig { s.enc.sig with
      c := some (Config.freeBits 1 .c s.serial s.enc.draws)
      ir := some (Config.freeBits 5 .ir s.serial s.enc.draws) } s)) := if_neg h

theorem execNormalize_of_admits {v : EncValue} (h : normalizeAdmits v.toNat = true) (s : State) :
    execNormalize v s = .next (setEncSig (normSignals v.toNat s.enc.sig) s) := if_pos h

theorem execNormalize_of_not_admits {v : EncValue} (h : normalizeAdmits v.toNat ≠ true) (s : State) :
    execNormalize v s =
      .next (drawEnc (setEncSig (freeNormSignals s.serial s.enc.draws s.enc.sig) s)) := if_neg h

/-! ### The leading one -/

/-- The scan answers the leading one where that lies in the window, and 4 below it. -/
theorem msbScan_of_leading_one {v k : Nat} (hk : k < 20) (hlo : 2 ^ k ≤ v) (hhi : v < 2 ^ (k + 1)) :
    msbScan v = max 4 k := by
  have above : ∀ j, k < j → v.testBit j = false := fun j hj =>
    Nat.testBit_lt_two_pow (lt_of_lt_of_le hhi (Nat.pow_le_pow_right (by decide) hj))
  have leading : v.testBit k = true := by
    have hdiv : v / 2 ^ k = 1 := by
      rw [Nat.div_eq_iff (by positivity)]; rw [pow_succ] at hhi; omega
    rw [Nat.testBit_eq_decide_div_mod_eq]; simp [hdiv]
  rcases msbScanFrom_cases v 15 with ⟨h4, hz⟩ | ⟨n, hn, hs, ht, hz⟩
  · rw [msbScan, h4]
    by_contra hc
    have := hz (k - 5) (by omega)
    rw [show k - 5 + 5 = k by omega, leading] at this
    cases this
  · rw [msbScan, hs]
    rcases lt_trichotomy (n + 5) k with h | h | h
    · have := hz (k - 5) (by omega) (by omega)
      rw [show k - 5 + 5 = k by omega, leading] at this
      cases this
    · omega
    · rw [above _ h] at ht
      cases ht

/-- The leading one and the window of an input of the normalizer. -/
theorem leading_one_of_normalizer_input {v : Nat} (hlo : 32 ≤ v) (hhi : v ≤ Config.cMax) :
    msbScan v = v.log2 ∧ 5 ≤ v.log2 ∧ v.log2 ≤ 18 ∧
      32 ≤ v / 2 ^ (v.log2 - 5) ∧ v / 2 ^ (v.log2 - 5) ≤ 63 ∧
      (v.log2 = 18 → v / 2 ^ (v.log2 - 5) ≤ 62) := by
  have hmax : v ≤ 516095 := hhi
  have h0 : v ≠ 0 := by omega
  have a := Nat.log2_self_le h0
  have b := Nat.lt_log2_self (n := v)
  have l5 : 5 ≤ v.log2 := by rw [Nat.le_log2 h0]; omega
  have l18 : v.log2 < 19 := by rw [Nat.log2_lt h0]; omega
  refine ⟨by rw [msbScan_of_leading_one (by omega) a b]; omega, l5, by omega, ?_⟩
  generalize v.log2 = k at *
  refine ⟨?_, ?_, ?_⟩
  · interval_cases k <;> omega
  · interval_cases k <;> omega
  · rintro rfl; omega

end Sys2Proof.Machine
end

