-- ==== Sys2Proof/Laws/PerInstr.lean ====
section
/-! SUPPORT. A fact about every operation as syntax: the pattern that presents it fits the port it is driven on (R27). -/

namespace Sys2Proof.Laws

/-- The port word of an operation, where it has one, is a value its port can present. -/
def WordFits.Statement (i : Instr) : Prop := ∀ p, encodeInstr i = some p → p.bits < 2 ^ p.nbits

theorem WordFits.encode (v : EncValue) : WordFits.Statement (.encode v) := by
  rintro p ⟨⟩; exact v.isLt

theorem WordFits.decode (b : Byte) : WordFits.Statement (.decode b) := by
  rintro p ⟨⟩; exact b.isLt

theorem WordFits.pack (shift mantissa : Nibble) : WordFits.Statement (.pack shift mantissa) := by
  rintro p ⟨⟩

theorem WordFits.unpack (byte : Byte) : WordFits.Statement (.unpack byte) := by
  rintro p ⟨⟩

theorem WordFits.msbscan (v : EncValue) : WordFits.Statement (.msbscan v) := by
  rintro p ⟨⟩

theorem WordFits.window (v : EncValue) (i : BitVec 5) : WordFits.Statement (.window v i) := by
  rintro p ⟨⟩

theorem WordFits.round (w : BitVec 6) : WordFits.Statement (.round w) := by
  rintro p ⟨⟩

theorem WordFits.renorm (wr : BitVec 7) (i : BitVec 5) : WordFits.Statement (.renorm wr i) := by
  rintro p ⟨⟩

theorem WordFits.normalize (v : EncValue) : WordFits.Statement (.normalize v) := by
  rintro p ⟨⟩

end Sys2Proof.Laws
end

