-- ==== Sys2Proof/Tests/Slice0.lean ====
section
/-! SUPPORT. Tests of the definitions. Expected results are those of `spec/95_test_vectors.md`, whose row is named in each
comment, or of the corner cases of the operation's rule. -/

namespace Sys2Proof.Tests

open Sys2Proof Sys2Proof.Machine

/-- A block in which nothing is driven and every wire reads 0. -/
def quiet : State := ⟨(), 0, ⟨0, .undriven, 0, false, .absent, 0⟩, ⟨0, .undriven, 0, .absent, 0⟩⟩

/-- The next state of an outcome. -/
def nextOf (o : Host.Outcome State Fault Refusal) : Option State :=
  match o with
  | .next s => some s
  | .fault _ => none
  | .refused _ => none

/-- What the encoder shows after an operation. -/
def encAfter (i : Instr) : Option (Byte × Bool) := (nextOf (exec i State.reset)).bind sampleEnc

/-- What the decoder shows after an operation. -/
def decAfter (i : Instr) : Option DecValue := (nextOf (exec i State.reset)).bind sampleDec

/-- A signal of the encoder after an operation. -/
def sigAfter {α : Type} (i : Instr) (signal : EncSignals → Option α) : Option α :=
  (nextOf (exec i quiet)).bind fun t => signal t.enc.sig

/-! ### Parameters (R5, R6) -/

theorem test_port_widths : EncValue = BitVec Config.wIn ∧ DecValue = BitVec Config.wOut ∧ Byte = BitVec Config.byteBits :=
  ⟨rfl, rfl, rfl⟩

/-- R5: the least legal widths make a machine too. -/
theorem test_least_legal_widths : ∃ w : Config.Widths, w.wIn = 19 ∧ w.wOut = 19 := ⟨⟨19, 19, le_rfl, le_rfl⟩, rfl, rfl⟩

/-- E7. -/
theorem test_cmax_arithmetic : Config.cMax = 31 * 2 ^ 14 + 8191 ∧ Config.cMax < 2 ^ 19 ∧ Config.decMax < 2 ^ 19 := by decide

/-! ### Well-formedness: one ill-formed term for each check -/

theorem test_wf_refuses_normalize_below : Instr.wf (.normalize 31) = false := by decide
theorem test_wf_refuses_normalize_above : Instr.wf (.normalize 516096) = false := by decide
theorem test_wf_refuses_window_wrong_index : Instr.wf (.window 1000 8) = false := by decide
theorem test_wf_refuses_window_small_value : Instr.wf (.window 31 4) = false := by decide
theorem test_wf_refuses_round_below : Instr.wf (.round 31) = false := by decide
theorem test_wf_refuses_renorm_window_below : Instr.wf (.renorm 31 5) = false := by decide
theorem test_wf_refuses_renorm_window_above : Instr.wf (.renorm 65 5) = false := by decide
theorem test_wf_refuses_renorm_index_below : Instr.wf (.renorm 64 4) = false := by decide
theorem test_wf_refuses_renorm_index_above : Instr.wf (.renorm 64 19) = false := by decide
theorem test_wf_admits_window : Instr.wf (.window 1000 9) = true := by decide

/-! ### Decoding: the bits of each transaction, written out (R49), and the stages that have none (R45) -/

/-- P2: `ENC_VALUE = 0x000003E8`. -/
theorem test_decode_encode_word :
    decodeTableWord 32 0b00000000000000000000001111101000 = some (.encode 1000) := by decide

/-- P2: `DEC_BYTE = 0x6F = 0b0110_1111`. -/
theorem test_decode_decode_word : decodeTableWord 8 0b01101111 = some (.decode 0x6F) := by decide

theorem test_decode_rejects_width : decodeWord 16 0 = .error (.noPortOfWidth 16) := by decide
theorem test_decode_rejects_wide_byte : decodeWord 8 256 = .error (.doesNotFit 8 256) := by decide
theorem test_pack_has_no_port : encodeInstr (.pack 2 4) = none := by decide
theorem test_unpack_has_no_port : encodeInstr (.unpack 0x24) = none := by decide
theorem test_msbscan_has_no_port : encodeInstr (.msbscan 1000) = none := by decide
theorem test_window_has_no_port : encodeInstr (.window 1000 9) = none := by decide
theorem test_round_has_no_port : encodeInstr (.round 33) = none := by decide
theorem test_renorm_has_no_port : encodeInstr (.renorm 64 5) = none := by decide
theorem test_normalize_has_no_port : encodeInstr (.normalize 1000) = none := by decide

/-! ### One step of each operation -/

/-- V-ENC-63: a carry of the rounding into the shift field. -/
theorem test_encode_carry : encAfter (.encode 63) = some (0x30, true) := by decide

/-- V-ENC-516096: the first saturated input. -/
theorem test_encode_saturates : encAfter (.encode 516096) = some (0xFF, false) := by decide

/-- V-DEC-0xFE. -/
theorem test_decode_top_shift : decAfter (.decode 0xFE) = some 491520 := by decide

/-- R48: shift 2, mantissa 4 is 40; the other nibble order would give 144. -/
theorem test_decode_nibble_order : decAfter (.decode 0x24) = some 40 := by decide

/-- V-PACK-4. -/
theorem test_pack_24 : sigAfter (.pack 2 4) (·.packed) = some 0x24 := by decide

/-- V-UNPACK-5. -/
theorem test_unpack_6F : (nextOf (exec (.unpack 0x6F) quiet)).map (·.dec.sig) = some ⟨some 6, some 15⟩ := by decide

/-- V-MSB-9. -/
theorem test_msbscan_1000 : sigAfter (.msbscan 1000) (·.i) = some 9 := by decide

/-- V-MSB-1: no bit of the window set. -/
theorem test_msbscan_zero : sigAfter (.msbscan 0) (·.i) = some 4 := by decide

/-- R55's example. -/
theorem test_window_1000 : sigAfter (.window 1000 9) (·.w) = some 62 := by decide

/-- V-NORM-22: 18 is the highest index. -/
theorem test_window_499712 : sigAfter (.window 499712 18) (·.w) = some 61 := by decide

/-- R56's example: a tie rounds up. -/
theorem test_round_33 : sigAfter (.round 33) (·.r) = some 1 ∧ sigAfter (.round 33) (·.wr) = some 34 := by decide

/-- R56: the carry is kept in the seventh bit. -/
theorem test_round_63 : sigAfter (.round 63) (·.r) = some 1 ∧ sigAfter (.round 63) (·.wr) = some 64 := by decide

/-- R57's two examples. -/
theorem test_renorm_64 : sigAfter (.renorm 64 5) (·.c) = some 1 ∧ sigAfter (.renorm 64 5) (·.ir) = some 6 := by decide
theorem test_renorm_62 : sigAfter (.renorm 62 9) (·.c) = some 0 ∧ sigAfter (.renorm 62 9) (·.ir) = some 9 := by decide

/-- R59's example. -/
theorem test_normalize_1000 :
    sigAfter (.normalize 1000) (·.shift) = some 6 ∧ sigAfter (.normalize 1000) (·.mantissa) = some 15 := by decide

/-- V-NORM-20: a carry at index 17. -/
theorem test_normalize_262143 :
    sigAfter (.normalize 262143) (·.ir) = some 18 ∧ sigAfter (.normalize 262143) (·.shift) = some 15 ∧
      sigAfter (.normalize 262143) (·.mantissa) = some 0 := by decide

/-! ### The step and the notation -/

/-- P1: the first step after power-up runs what is driven. -/
theorem test_step_runs_driven_value :
    (nextOf (step (State.reset.withFetchWord 32 40))).bind sampleEnc = some (0x24, true) := by decide

/-- P6: one step settles both datapaths. -/
theorem test_one_step_settles_both :
    (nextOf (step ((State.reset.withFetchWord 32 100000).withFetchWord 8 0x0F))).map
      (fun t => (sampleEnc t, sampleDec t)) = some (some (0xD8, true), some 15) := by decide

/-- R18, R95: driving the settled value again is no change, so the output stays observable. -/
theorem test_same_value_stays_settled :
    (nextOf (exec (.encode 40) State.reset)).bind (fun t => sampleEnc (driveEnc 40 t)) = some (0x24, true) := by decide

/-- R88: an event at one instance of a row leaves the other as it was. -/
theorem test_row_of_two :
    (runRow [(1, .drive (.decByte 0x24)), (1, .wait)] (powerUpRow 2)).map sampleDec = [none, some 40] := by decide

/-- What a host has sampled when its program ends. -/
def sampledBy (p : Txn) : Option (Option (Byte × Bool) × Option DecValue) :=
  match runTxn p (HostState.start State.reset) with
  | .ok h => some (h.encSample, h.decSample)
  | .error _ => none

/-- P1: the round trip of 40, with its ASSERT. -/
theorem test_program_P1 :
    sampledBy (.seq (.encode (.num 40)) (.seq (.decode .encByte) (.check (.eq .decValue (.num 40))))) =
      some (some (0x24, true), some 40) := by decide

/-- P6: both datapaths at once. -/
theorem test_program_P6 :
    sampledBy (.par (.num 100000) (.num 0x0F)) = some (some (0xD8, true), some 15) := by decide

/-- An ASSERT that does not hold ends a program: the tie of P3. -/
theorem test_assert_fails : runTxn (.check (.eq (.num 33) (.num 34))) (HostState.start quiet) = .error .assertFailed := by
  decide

/-! ### Witnesses: a state and operands that meet the hypotheses of each statement, at the ends of their ranges -/

theorem test_witness_msbscan_range :
    (0xFFFFF : EncValue).toNat < 2 ^ 20 ∧ (0 : EncValue).toNat < 2 ^ 20 ∧ (31 : EncValue).toNat < 32 ∧
      (516095 : EncValue).toNat ≤ 516095 := by decide

theorem test_witness_msbscan_window :
    (0x00000030 : EncValue).extractLsb' 4 16 = (0xFFF0003F : EncValue).extractLsb' 4 16 := by decide

/-- The inputs of the normalizer: also the hypotheses of every statement over 32..CMAX. -/
theorem test_witness_normalizer_range :
    32 ≤ (32 : EncValue).toNat ∧ (32 : EncValue).toNat ≤ 516095 ∧
      32 ≤ (516095 : EncValue).toNat ∧ (516095 : EncValue).toNat ≤ 516095 := by decide

theorem test_witness_window_index :
    (5 : BitVec 5).toNat = (32 : EncValue).toNat.log2 ∧
      (18 : BitVec 5).toNat = (516095 : EncValue).toNat.log2 := by decide

theorem test_witness_round : 32 ≤ (32 : BitVec 6).toNat ∧ 32 ≤ (63 : BitVec 6).toNat := by decide

theorem test_witness_renorm :
    32 ≤ (32 : BitVec 7).toNat ∧ (64 : BitVec 7).toNat ≤ 64 ∧ 5 ≤ (5 : BitVec 5).toNat ∧
      (18 : BitVec 5).toNat ≤ 18 ∧ 32 ≤ (64 : BitVec 7).toNat ∧ (32 : BitVec 7).toNat ≤ 64 ∧
      5 ≤ (18 : BitVec 5).toNat ∧ (5 : BitVec 5).toNat ≤ 18 := by decide

/-- A carry: the window of 63, and of 516095 none. -/
theorem test_witness_carry :
    (63 : EncValue).extractLsb' ((63 : EncValue).toNat.log2 - 5) 6 = 0b111111 ∧
      (516095 : EncValue).extractLsb' ((516095 : EncValue).toNat.log2 - 5) 6 ≠ 0b111111 := by decide

theorem test_witness_internal : Instr.isExternal (.pack 2 4) = false := by decide

theorem test_witness_external :
    Instr.isExternal (.encode 40) = true ∧ Instr.isExternal (.decode 0x24) = true := by decide

theorem test_witness_saturation :
    516095 < (516096 : EncValue).toNat ∧ 516095 < (4294967295 : EncValue).toNat := by decide

theorem test_witness_encode_paths :
    516095 < (516096 : EncValue).toNat ∧ (15 : EncValue).toNat < 16 ∧ 16 ≤ (16 : EncValue).toNat ∧
      (31 : EncValue).toNat < 32 ∧ 32 ≤ (32 : EncValue).toNat ∧ (516095 : EncValue).toNat ≤ 516095 := by decide

theorem test_witness_small_value : (0 : EncValue).toNat < 32 ∧ (31 : EncValue).toNat < 32 := by decide

theorem test_witness_byte_order : (0x0F : Byte).toNat < (0x10 : Byte).toNat ∧ (0xFE : Byte).toNat < (0xFF : Byte).toNat := by
  decide

theorem test_witness_shift_run :
    (0 : Nibble).toNat = 0 ∧ 1 ≤ (1 : Nibble).toNat ∧ 1 ≤ (15 : Nibble).toNat ∧ 15 < 16 ∧ 0 < 16 := by decide

theorem test_witness_input_order :
    (516095 : EncValue).toNat < (516096 : EncValue).toNat ∧ (31 : EncValue).toNat < (32 : EncValue).toNat := by decide

theorem test_witness_bucket :
    (516095 : EncValue).toNat ≤ 516095 ∧ bucketLo 15 15 = 499712 ∧ bucketLo 3 0 = 63 ∧ bucketHi 3 0 = 65 := by decide

theorem test_witness_overlap :
    ∃ s' : State, s' = driveDec 0x0F (driveEnc 100000 quiet) ∨ s' = driveEnc 100000 (driveDec 0x0F quiet) :=
  ⟨driveDec 0x0F (driveEnc 100000 quiet), .inl rfl⟩

/-- R5: two legal widths, and one value at both. -/
theorem test_witness_widths :
    19 ≤ 19 ∧ 19 ≤ 64 ∧ (516095 : BitVec 19).toNat = (516095 : EncValue).toNat ∧
      516095 < (516096 : BitVec 19).toNat ∧ 516095 < (516096 : BitVec 64).toNat := by decide

/-- A state that meets the invariant with both datapaths settled. -/
def settledState : State := settleDec 0x24 ⟨.absent, 40⟩ (settleEnc 40 ⟨.absent, 0x24, true⟩ quiet)

theorem test_witness_portsFollowInputs : PortsFollowInputs settledState :=
  ⟨fun _ => by decide, fun _ => by decide, fun _ => by decide⟩

theorem test_witness_step_keeps :
    PortsFollowInputs (driveEnc 63 settledState) ∧ (nextOf (step (driveEnc 63 settledState))).isSome = true :=
  ⟨⟨nofun, fun _ => by decide, fun _ => by decide⟩, by decide⟩

theorem test_witness_exec_keeps : (nextOf (exec (.encode 63) settledState)).isSome = true := by decide

/-- A state that shows something on both sides and meets the invariant of what is shown. -/
theorem test_witness_observations :
    ObservationsObeySpec settledState ∧ sampleEnc settledState = some (0x24, true) ∧
      sampleDec settledState = some 40 := by
  refine ⟨⟨fun byte h => ?_, fun byte h => ?_, fun value h k hk => ?_⟩, by decide, by decide⟩
  · cases h
  · cases h; decide
  · cases h
    exact Nat.testBit_lt_two_pow (lt_of_lt_of_le (by decide : 40 < 2 ^ 6) (Nat.pow_le_pow_right two_pos (by omega)))

/-- A saturated state, for the clause on a flag of 0. -/
theorem test_witness_observations_saturated :
    sampleEnc (settleEnc 516096 ⟨.absent, 0xFF, false⟩ quiet) = some (0xFF, false) := by decide

theorem test_witness_no_signals : NoSignals quiet ∧ NoSignals settledState ∧ step settledState = .next settledState :=
  ⟨⟨rfl, rfl⟩, ⟨rfl, rfl⟩, rfl⟩

/-- The cases of a drive: not driven before, another value, the same value. -/
theorem test_witness_drives :
    quiet.enc.phase = .undriven ∧ settledState.enc.phase ≠ .undriven ∧ settledState.enc.value = 40 ∧
      settledState.enc.value ≠ 41 ∧ quiet.dec.phase = .undriven ∧ settledState.dec.phase ≠ .undriven ∧
      settledState.dec.byte = 0x24 ∧ settledState.dec.byte ≠ 0x25 := by decide

/-- Something was driven before, or is driven by the events; in a row too. -/
theorem test_witness_events :
    lastEncDriven [] (encDriven settledState) = some 40 ∧
      lastEncDriven [.drive (.encValue 7), .wait] (encDriven quiet) = some 7 ∧
      lastDecDriven [.drive (.decByte 255), .drive (.encValue 7)] (decDriven quiet) = some 255 ∧
      [quiet, settledState][1]? = some settledState ∧
      lastEncDriven (eventsOf 1 [(0, .drive (.encValue 7)), (1, .wait)]) (encDriven settledState) = some 40 ∧
      lastDecDriven (eventsOf 1 [(1, .drive (.decByte 0))]) (decDriven settledState) = some 0 := by decide

theorem test_witness_reachable_encoded :
    Reachable (applyEvent .wait (applyEvent (.drive (.encValue 516096)) State.reset)) ∧
      sampleEnc (applyEvent .wait (applyEvent (.drive (.encValue 516096)) State.reset)) = some (0xFF, false) :=
  ⟨.event _ (.event _ .reset), by decide⟩

theorem test_witness_reachable_in_range :
    Reachable (applyEvent .wait (applyEvent (.drive (.encValue 516095)) State.reset)) ∧
      sampleEnc (applyEvent .wait (applyEvent (.drive (.encValue 516095)) State.reset)) = some (0xFF, true) :=
  ⟨.event _ (.event _ .reset), by decide⟩

theorem test_witness_reachable_decoded :
    Reachable (applyEvent .wait (applyEvent (.drive (.decByte 0xFF)) State.reset)) ∧
      sampleDec (applyEvent .wait (applyEvent (.drive (.decByte 0xFF)) State.reset)) = some 507904 :=
  ⟨.event _ (.event _ .reset), by decide⟩

theorem test_witness_held_input :
    (∀ d, d ≤ (Config.tSettle : Nat) → (fun _ : Nat => some (40 : EncValue)) ((Config.tSettle : Nat) - d) = some 40) ∧
      (∀ d, d ≤ (Config.tSettle : Nat) → (fun _ : Nat => some (36 : Byte)) ((Config.tSettle : Nat) - d) = some 36) ∧
      (Config.tSettle : Nat) ≤ (Config.tSettle : Nat) := ⟨fun _ _ => rfl, fun _ _ => rfl, le_rfl⟩

/-- An input that changed in the very tick of the observation, and an instant too soon after power-up. -/
theorem test_witness_changed_input :
    1 ≤ (Config.tSettle : Nat) ∧ 0 < (Config.tSettle : Nat) ∧
      (fun n => if n = 7 then some (40 : EncValue) else none) (7 - 1) ≠
        (fun n => if n = 7 then some (40 : EncValue) else none) 7 ∧
      (fun n => if n = 7 then some (36 : Byte) else none) (7 - 1) ≠
        (fun n => if n = 7 then some (36 : Byte) else none) 7 :=
  ⟨Config.tSettle.pos, Config.tSettle.pos, by decide, by decide⟩

theorem test_witness_presented :
    presented quiet = [] ∧ presented (driveEnc 40 quiet) = [.encValue 40] ∧
      presented (driveDec 0x24 quiet) = [.decByte 0x24] ∧
      presented (driveEnc 40 (driveDec 0x24 quiet)) = [.encValue 40, .decByte 0x24] := by decide

theorem test_witness_decodes :
    decodeWord 32 4294967295 = .ok (.encode 4294967295) ∧ decodeWord 8 255 = .ok (.decode 255) := by decide

theorem test_witness_illegal_patterns : 2 ^ 32 ≤ 4294967296 ∧ 2 ^ 8 ≤ 256 ∧ 16 ≠ 32 ∧ 16 ≠ 8 := by decide

end Sys2Proof.Tests
end

section
/-! PROOFS. What ENCODE and DECODE leave on their ports, the decoded value through the encoder's paths, and from these the
codec at every legal width. -/

namespace Sys2Proof.Machine

/-! ### The meanings of the two external operations -/

theorem exec_encode (v : EncValue) (s : State) : exec (.encode v) s = .next (settleEnc v (evalEncode v) s) := rfl

theorem exec_decode (b : Byte) (s : State) : exec (.decode b) s = .next (settleDec b (evalDecode b) s) := rfl

/-! ### The decoder's range (R73) -/

theorem shiftField_lt (b : Nat) : shiftField b < 16 := by
  rw [shiftField_eq_div_mod]; omega

theorem mantissaField_lt (b : Nat) : mantissaField b < 16 := by
  rw [mantissaField_eq_mod]; omega

theorem decodeNat_le_decMax (b : Nat) : decodeNat b ≤ Config.decMax := by
  have hm := mantissaField_lt b
  have hs := shiftField_lt b
  by_cases h : shiftField b = 0
  · rw [decodeNat_shift_zero h, Config.decMax]; omega
  · calc decodeNat b = (16 + mantissaField b) * 2 ^ (shiftField b - 1) := decodeNat_shift_pos h
      _ ≤ 31 * 2 ^ 14 := Nat.mul_le_mul (by omega) (Nat.pow_le_pow_right (by decide) (by omega))
      _ = Config.decMax := rfl

/-- A decoded value is in the encoder's range. -/
theorem decodeNat_le_cMax (b : Nat) : decodeNat b ≤ Config.cMax :=
  (decodeNat_le_decMax b).trans (by decide)

/-- 19 bits hold every decoded value, and so does every legal width (R5). -/
theorem decodeNat_lt_two_pow {n : Nat} (hn : 19 ≤ n) (b : Nat) : decodeNat b < 2 ^ n :=
  calc decodeNat b ≤ Config.decMax := decodeNat_le_decMax b
    _ < 2 ^ 19 := by decide
    _ ≤ 2 ^ n := Nat.pow_le_pow_right Nat.two_pos hn

/-! ### The decoded value through the encoder (R75) -/

/-- A significand with its implicit one, scaled, is normalized back to its fields: the guard bit under the significand is
0, so ROUND adds nothing and RENORM carries nothing. -/
theorem normalizeFields_of_scaled {k m : Nat} (hk : k < 14) (hm : m < 16) :
    normalizeFields ((16 + m) * 2 ^ (k + 1)) = (k + 2, m) := by
  have hpow : 2 ^ (k + 5) = 16 * 2 ^ (k + 1) := by ring
  have hmsb : msbScan ((16 + m) * 2 ^ (k + 1)) = k + 5 := by
    have hlo : 2 ^ (k + 5) ≤ (16 + m) * 2 ^ (k + 1) := hpow ▸ Nat.mul_le_mul_right _ (by omega)
    have hhi : (16 + m) * 2 ^ (k + 1) < 2 ^ (k + 5 + 1) := by
      rw [pow_succ 2 (k + 5), hpow, Nat.mul_right_comm]
      exact Nat.mul_lt_mul_of_pos_right (show 16 + m < 16 * 2 by omega) (by positivity)
    rw [msbScan_of_leading_one (by omega) hlo hhi]
    omega
  have hwindow : windowBits ((16 + m) * 2 ^ (k + 1)) (k + 5) = 32 + 2 * m := by
    rw [windowBits_eq_div, Nat.add_sub_cancel, pow_succ', ← Nat.mul_assoc, Nat.mul_div_cancel _ (by positivity)]
    omega
  have hrounded : normWindow ((16 + m) * 2 ^ (k + 1)) = 32 + 2 * m := by
    rw [normWindow, hmsb, hwindow, roundedWindow_eq_add_mod]
    omega
  have hindex : normIndex ((16 + m) * 2 ^ (k + 1)) = k + 5 := by
    rw [normIndex, hrounded, hmsb, renormIndex_eq_add]
    omega
  rw [normalizeFields, hrounded, hindex, mantissaOf_eq_div_mod, shiftOf, Prod.mk.injEq]
  omega

/-- The encoder finds the fields of a decoded byte: unrounded at shifts 0 and 1, through NORMALIZE from shift 2 up. -/
theorem encodeFields_decodeNat (b : Nat) : encodeFields (decodeNat b) = (shiftField b, mantissaField b) := by
  have hm := mantissaField_lt b
  have hs := shiftField_lt b
  by_cases h0 : shiftField b = 0
  · rw [decodeNat_shift_zero h0, encodeFields_shift_zero hm, h0]
  · rw [decodeNat_shift_pos h0]
    generalize shiftField b = s at *
    generalize mantissaField b = m at *
    match s, h0 with
    | 1, _ =>
      rw [Nat.sub_self, pow_zero, Nat.mul_one, encodeFields_shift_one (by omega) (by omega), Nat.add_sub_cancel_left]
    | k + 2, _ =>
      have hlarge : 32 ≤ (16 + m) * 2 ^ (k + 1) :=
        Nat.mul_le_mul (show 16 ≤ 16 + m by omega) (Nat.pow_le_pow_right Nat.two_pos (show 1 ≤ k + 1 by omega))
      rw [Nat.add_sub_assoc (by decide), encodeFields_normalizer hlarge, normalizeFields_of_scaled (by omega) hm]

theorem encodeByte_decodeNat {b : Nat} (hb : b < 256) : encodeByte (decodeNat b) = b := by
  rw [encodeByte_inRange (decodeNat_le_cMax b), encodeFields_decodeNat,
    packFields_eq_sum (shiftField_lt b) (mantissaField_lt b), shiftField_eq_div_mod, mantissaField_eq_mod]
  omega

/-! ### The codec's functions at any width (R5) -/

/-- ENCODE reads the number its pattern stands for, not the pattern's width. -/
theorem encodeResult_eq_of_toNat_eq {w w' : Nat} {u : BitVec w} {v : BitVec w'} (h : u.toNat = v.toNat) :
    encodeResult u = encodeResult v := by
  rw [encodeResult, encodeResult, h]

theorem encodeResult_saturated {w : Nat} {u : BitVec w} (h : Config.cMax < u.toNat) :
    encodeResult u = (0xFF, false) := by
  have hflag : exactFlag u.toNat = false := decide_eq_false (Nat.not_le.mpr h)
  rw [encodeResult, encodeByte_saturated h, hflag]
  rfl

/-- DECODE loses nothing at a legal width. -/
theorem decodeResult_toNat {w : Nat} (hw : 19 ≤ w) (b : Byte) : (decodeResult w b).toNat = decodeNat b.toNat := by
  rw [decodeResult, BitVec.toNat_ofNat, Nat.mod_eq_of_lt (decodeNat_lt_two_pow hw b.toNat)]

theorem decodeResult_upper_bits {w k : Nat} (hw : 19 ≤ w) (hk : 19 ≤ k) (b : Byte) :
    (decodeResult w b).getLsbD k = false := by
  rw [BitVec.getLsbD, decodeResult_toNat hw]
  exact Nat.testBit_lt_two_pow (decodeNat_lt_two_pow hk b.toNat)

/-- R75 over any pattern that stands for the decoded value of a byte. -/
theorem encodeResult_of_decodeNat {w : Nat} {u : BitVec w} {b : Byte} (h : u.toNat = decodeNat b.toNat) :
    encodeResult u = (b, true) := by
  rw [encodeResult, h, encodeByte_decodeNat b.isLt, (exactFlag_iff _).mpr (decodeNat_le_cMax _),
    BitVec.ofNat_toNat, BitVec.setWidth_eq]

/-- R75 between two legal widths: what one decodes, the other encodes back. -/
theorem encodeResult_decodeResult {wIn wOut : Nat} (hIn : 19 ≤ wIn) (hOut : 19 ≤ wOut) (b : Byte) :
    encodeResult ((decodeResult wOut b).setWidth wIn) = (b, true) := by
  apply encodeResult_of_decodeNat
  rw [BitVec.toNat_setWidth, decodeResult_toNat hOut, Nat.mod_eq_of_lt (decodeNat_lt_two_pow hIn b.toNat)]

/-- Settles O32: every legal width holds every decoded value, and the codec's functions read and give numbers. -/
theorem codecIsTheSameAtEveryLegalWidth : Obligations.CodecIsTheSameAtEveryLegalWidth := by
  intro wIn wOut hIn hOut
  refine ⟨fun u v s huv => ⟨_, exec_encode v s, encodeResult_eq_of_toNat_eq huv⟩,
    fun u hu => encodeResult_saturated hu,
    fun b s => ⟨_, exec_decode b s, ?_, encodeResult_decodeResult hIn hOut b,
      fun k hk => decodeResult_upper_bits hOut hk b⟩⟩
  calc (decodeResult wOut b).toNat
      = decodeNat b.toNat := decodeResult_toNat hOut b
    _ = (decodeResult Config.wOut b).toNat := (decodeResult_toNat Config.widths.wOut_legal b).symm

end Sys2Proof.Machine
end

section
/-! PROOFS. What each operation does to the ports, one induction for every invariant of the reachable states, and the
two invariants that the ports follow their inputs (R18) and that no signal outlives its evaluation (R19, R20). -/

namespace Sys2Proof.Machine

/-! ### The stages reach no port (R45) -/

theorem stageFrame_setEncSig (g : EncSignals) (s : State) : StageFrame s (setEncSig g s) := by
  constructor <;> rfl

theorem stageFrame_drawEnc_setEncSig (g : EncSignals) (s : State) : StageFrame s (drawEnc (setEncSig g s)) := by
  constructor <;> rfl

theorem stageFrame_setDecSig (g : DecSignals) (s : State) : StageFrame s (setDecSig g s) := by
  constructor <;> rfl

/-- Everything a stage can do: signals of one side take new values, and a bounded stage outside its operands draws. -/
theorem exec_internal_cases {i : Instr} (hi : i.isExternal = false) (s : State) :
    (∃ g, exec i s = .next (setEncSig g s)) ∨ (∃ g, exec i s = .next (drawEnc (setEncSig g s))) ∨
      ∃ g, exec i s = .next (setDecSig g s) := by
  cases i with
  | encode v => cases hi
  | decode b => cases hi
  | pack shift mantissa => exact .inl ⟨_, rfl⟩
  | unpack byte => exact .inr (.inr ⟨_, rfl⟩)
  | msbscan v => exact .inl ⟨_, rfl⟩
  | window v k =>
    by_cases h : windowAdmits v.toNat k.toNat = true
    · exact .inl ⟨_, execWindow_of_admits h s⟩
    · exact .inr (.inl ⟨_, execWindow_of_not_admits h s⟩)
  | round w =>
    by_cases h : roundAdmits w.toNat = true
    · exact .inl ⟨_, execRound_of_admits h s⟩
    · exact .inr (.inl ⟨_, execRound_of_not_admits h s⟩)
  | renorm wr k =>
    by_cases h : renormAdmits wr.toNat k.toNat = true
    · exact .inl ⟨_, execRenorm_of_admits h s⟩
    · exact .inr (.inl ⟨_, execRenorm_of_not_admits h s⟩)
  | normalize v =>
    by_cases h : normalizeAdmits v.toNat = true
    · exact .inl ⟨_, execNormalize_of_admits h s⟩
    · exact .inr (.inl ⟨_, execNormalize_of_not_admits h s⟩)

theorem exec_internal_stageFrame {i : Instr} (hi : i.isExternal = false) (s : State) :
    ∃ t, exec i s = .next t ∧ StageFrame s t := by
  obtain ⟨g, h⟩ | ⟨g, h⟩ | ⟨g, h⟩ := exec_internal_cases hi s
  · exact ⟨_, h, stageFrame_setEncSig g s⟩
  · exact ⟨_, h, stageFrame_drawEnc_setEncSig g s⟩
  · exact ⟨_, h, stageFrame_setDecSig g s⟩

/-- Everything an operation can do to the ports: ENCODE and DECODE settle their own side, a stage reaches no port. -/
theorem exec_next_cases {i : Instr} {s t : State} (h : exec i s = .next t) :
    (∃ v, i = .encode v ∧ t = settleEnc v (evalEncode v) s) ∨
      (∃ b, i = .decode b ∧ t = settleDec b (evalDecode b) s) ∨ StageFrame s t := by
  cases hi : i.isExternal with
  | false =>
    obtain ⟨u, hu, hframe⟩ := exec_internal_stageFrame hi s
    rw [hu] at h
    cases h
    exact .inr (.inr hframe)
  | true =>
    cases i with
    | encode v => cases h; exact .inl ⟨v, rfl, rfl⟩
    | decode b => cases h; exact .inr (.inl ⟨b, rfl, rfl⟩)
    | _ => cases hi

/-! ### What every step and every reachable state keeps -/

/-- A step settles the driven sides and does nothing else, so what settling keeps, it keeps. -/
theorem step_preserves {P : State → Prop} (henc : ∀ v s, P s → P (settleEnc v (evalEncode v) s))
    (hdec : ∀ b s, P s → P (settleDec b (evalDecode b) s)) {s t : State} (hs : P s) (h : step s = .next t) : P t := by
  have hP : P (stepEnc s) := by
    unfold stepEnc
    split
    · exact henc _ _ hs
    · exact hs
  rw [step_eq] at h
  cases h
  unfold stepDec
  split
  · exact hdec _ _ hP
  · exact hP

theorem afterStep_eq (s : State) : afterStep s = stepDec (stepEnc s) := by
  rw [afterStep, step_eq]

theorem step_eq_next_afterStep (s : State) : step s = .next (afterStep s) := by
  rw [afterStep_eq, step_eq]

/-- What holds after power-up and is kept by every step and every drive holds of every reachable state. -/
theorem Reachable.of_inductive {P : State → Prop} (hreset : P State.reset)
    (hstep : ∀ s t, P s → step s = .next t → P t) (hdrive : ∀ p s, P s → P (drive p s)) {s : State}
    (h : Reachable s) : P s := by
  induction h with
  | reset => exact hreset
  | event e _ ih =>
    cases e with
    | drive p => exact hdrive p _ ih
    | wait => exact hstep _ _ ih (step_eq_next_afterStep _)

/-! ### The ports follow their inputs (R18) -/

theorem portsFollowInputs_settleEnc {s : State} (h : PortsFollowInputs s) (v : EncValue) :
    PortsFollowInputs (settleEnc v (evalEncode v) s) :=
  ⟨fun _ => rfl, h.decoder, h.decRange⟩

theorem decodeResult_le_decMax (b : Byte) : (decodeResult Config.wOut b).toNat ≤ Config.decMax :=
  (decodeResult_toNat Config.widths.wOut_legal b).trans_le (decodeNat_le_decMax b.toNat)

theorem portsFollowInputs_settleDec {s : State} (h : PortsFollowInputs s) (b : Byte) :
    PortsFollowInputs (settleDec b (evalDecode b) s) :=
  ⟨h.encoder, fun _ => rfl, fun _ => decodeResult_le_decMax b⟩

/-- The invariant reads ports and phases alone, which a stage leaves as they are. -/
theorem portsFollowInputs_of_stageFrame {s t : State} (h : PortsFollowInputs s) (f : StageFrame s t) :
    PortsFollowInputs t where
  encoder := by rw [f.encPhase, f.encByte, f.encExact, f.encValue]; exact h.encoder
  decoder := by rw [f.decPhase, f.decValue, f.decByte]; exact h.decoder
  decRange := by rw [f.decPhase, f.decValue]; exact h.decRange

theorem portsFollowInputs_driveEnc {s : State} (h : PortsFollowInputs s) (v : EncValue) :
    PortsFollowInputs (driveEnc v s) := by
  by_cases hc : encCarries v s = true
  · rwa [driveEnc_of_carries hc]
  · rw [driveEnc_of_change hc]
    exact ⟨nofun, h.decoder, h.decRange⟩

theorem portsFollowInputs_driveDec {s : State} (h : PortsFollowInputs s) (b : Byte) :
    PortsFollowInputs (driveDec b s) := by
  by_cases hc : decCarries b s = true
  · rwa [driveDec_of_carries hc]
  · rw [driveDec_of_change hc]
    exact ⟨h.encoder, nofun, nofun⟩

theorem portsFollowInputs_step {s t : State} (hs : PortsFollowInputs s) (h : step s = .next t) :
    PortsFollowInputs t :=
  step_preserves (P := PortsFollowInputs) (fun v _ hs => portsFollowInputs_settleEnc hs v)
    (fun b _ hs => portsFollowInputs_settleDec hs b) hs h

theorem portsFollowInputs_exec {i : Instr} {s t : State} (hs : PortsFollowInputs s) (h : exec i s = .next t) :
    PortsFollowInputs t := by
  obtain ⟨v, -, rfl⟩ | ⟨b, -, rfl⟩ | hframe := exec_next_cases h
  · exact portsFollowInputs_settleEnc hs v
  · exact portsFollowInputs_settleDec hs b
  · exact portsFollowInputs_of_stageFrame hs hframe

theorem portsFollowInputs_drive {s : State} (hs : PortsFollowInputs s) (p : PortWord) :
    PortsFollowInputs (drive p s) := by
  cases p with
  | encValue v => exact portsFollowInputs_driveEnc hs v
  | decByte b => exact portsFollowInputs_driveDec hs b

/-- Nothing has settled after power-up. -/
theorem portsFollowInputs_reset : PortsFollowInputs State.reset := ⟨nofun, nofun, nofun⟩

theorem portsFollowInputs_of_reachable {s : State} (h : Reachable s) : PortsFollowInputs s :=
  h.of_inductive portsFollowInputs_reset (fun _ _ => portsFollowInputs_step) fun p _ hs => portsFollowInputs_drive hs p

/-- Settles O49: settling an evaluation brings the invariant about, a change of the input leaves nothing settled, and
a stage reaches no port. -/
theorem portsFollowInputsIsInductive : Obligations.PortsFollowInputsIsInductive :=
  ⟨fun _ _ => portsFollowInputs_step, fun _ _ _ => portsFollowInputs_exec, fun p _ hs => portsFollowInputs_drive hs p⟩

/-! ### No signal outlives its evaluation (R19, R20) -/

theorem noSignals_settleEnc {s : State} (h : NoSignals s) (v : EncValue) (e : EncEvaluation) :
    NoSignals (settleEnc v e s) := ⟨rfl, h.decoder⟩

theorem noSignals_settleDec {s : State} (h : NoSignals s) (b : Byte) (e : DecEvaluation) :
    NoSignals (settleDec b e s) := ⟨h.encoder, rfl⟩

theorem noSignals_step {s t : State} (hs : NoSignals s) (h : step s = .next t) : NoSignals t :=
  step_preserves (P := NoSignals) (fun v _ hs => noSignals_settleEnc hs v _)
    (fun b _ hs => noSignals_settleDec hs b _) hs h

theorem noSignals_driveEnc {s : State} (h : NoSignals s) (v : EncValue) : NoSignals (driveEnc v s) := by
  by_cases hc : encCarries v s = true
  · rwa [driveEnc_of_carries hc]
  · rw [driveEnc_of_change hc]
    exact ⟨rfl, h.decoder⟩

theorem noSignals_driveDec {s : State} (h : NoSignals s) (b : Byte) : NoSignals (driveDec b s) := by
  by_cases hc : decCarries b s = true
  · rwa [driveDec_of_carries hc]
  · rw [driveDec_of_change hc]
    exact ⟨h.encoder, rfl⟩

theorem noSignals_drive {s : State} (hs : NoSignals s) (p : PortWord) : NoSignals (drive p s) := by
  cases p with
  | encValue v => exact noSignals_driveEnc hs v
  | decByte b => exact noSignals_driveDec hs b

theorem noSignals_reset : NoSignals State.reset := ⟨rfl, rfl⟩

theorem noSignals_of_reachable {s : State} (h : Reachable s) : NoSignals s :=
  h.of_inductive noSignals_reset (fun _ _ => noSignals_step) fun p _ hs => noSignals_drive hs p

/-- Settles O45: settling and a change of the input both clear the signals of their side. -/
theorem signalsEndWithTheirEvaluation : Obligations.SignalsEndWithTheirEvaluation :=
  ⟨fun v s => ⟨_, exec_encode v s, settleEnc_enc_sig v _ s⟩,
    fun b s => ⟨_, exec_decode b s, settleDec_dec_sig b _ s⟩,
    fun _ _ => noSignals_step, fun p _ hs => noSignals_drive hs p, fun _ => noSignals_of_reachable⟩

end Sys2Proof.Machine
end

section
/-! PROOFS. DECODE through the signals of UNPACK (R14, R72), and the operation of every pattern (R27, R44). -/

namespace Sys2Proof.Machine

/-! ### DECODE through the signals of UNPACK -/

theorem exec_unpack (b : Byte) (s : State) : exec (.unpack b) s = .next (setDecSig (unpackSignals b.toNat) s) := rfl

/-- The decoding rule (R72) over 4-bit fields that hold those of the byte. -/
theorem decodeNat_of_fields {b : Nat} {sh m : Nibble} (hsh : sh.toNat = shiftField b) (hm : m.toNat = mantissaField b) :
    decodeNat b = if sh = 0 then m.toNat else (16 + m.toNat) <<< (sh.toNat - 1) := by
  have hzero : sh = 0 ↔ shiftField b = 0 := by rw [← hsh, ← BitVec.toNat_inj]; rfl
  by_cases h : shiftField b = 0
  · rw [if_pos (hzero.mpr h), hm, decodeNat_shift_zero h]
  · rw [if_neg (mt hzero.mp h), hm, hsh, decodeNat_shift_pos h, Nat.shiftLeft_eq]

/-- Settles O20: UNPACK's signals hold the fields of the byte whole, since both are below 16. -/
theorem decodeRefinesUnpackThenScale : Obligations.DecodeRefinesUnpackThenScale := by
  intro b s
  have hsh : (BitVec.ofNat 4 (shiftField b.toNat)).toNat = shiftField b.toNat := Nat.mod_eq_of_lt (shiftField_lt _)
  have hm : (BitVec.ofNat 4 (mantissaField b.toNat)).toNat = mantissaField b.toNat :=
    Nat.mod_eq_of_lt (mantissaField_lt _)
  refine ⟨_, BitVec.ofNat 4 (shiftField b.toNat), BitVec.ofNat 4 (mantissaField b.toNat), _, exec_unpack b s, rfl,
    rfl, exec_decode b s, ?_⟩
  calc (decodeResult Config.wOut b).toNat
      = decodeNat b.toNat := decodeResult_toNat Config.widths.wOut_legal b
    _ = _ := decodeNat_of_fields hsh hm

/-! ### The operation of a pattern -/

theorem decodeWord_encValue {w : Nat} (h : w < 2 ^ Config.wIn) :
    decodeWord Config.wIn w = .ok (.encode (BitVec.ofNat Config.wIn w)) := by
  rw [decodeWord, portWord, if_pos rfl, if_pos h]
  rfl

theorem decodeWord_decByte {w : Nat} (h : w < 2 ^ 8) : decodeWord 8 w = .ok (.decode (BitVec.ofNat 8 w)) := by
  rw [decodeWord, portWord, Config.byteBits, if_neg (by decide), if_pos rfl, if_pos h]
  rfl

theorem decodeWord_encValue_too_wide {w : Nat} (h : 2 ^ Config.wIn ≤ w) :
    decodeWord Config.wIn w = .error (.doesNotFit Config.wIn w) := by
  rw [decodeWord, portWord, if_pos rfl, if_neg (Nat.not_lt.mpr h)]

theorem decodeWord_decByte_too_wide {w : Nat} (h : 2 ^ 8 ≤ w) : decodeWord 8 w = .error (.doesNotFit 8 w) := by
  rw [decodeWord, portWord, Config.byteBits, if_neg (by decide), if_pos rfl, if_neg (Nat.not_lt.mpr h)]

theorem decodeWord_no_port {n : Nat} (hIn : n ≠ Config.wIn) (hByte : n ≠ 8) (w : Nat) :
    decodeWord n w = .error (.noPortOfWidth n) := by
  rw [decodeWord, portWord, Config.byteBits, if_neg hIn, if_neg hByte]

/-- Settles O47: the width selects the port, and the port's range admits the value or rejects it. -/
theorem everyPortValueIsLegal : Obligations.EveryPortValueIsLegal :=
  ⟨fun _ => decodeWord_encValue, fun _ => decodeWord_decByte, fun _ => decodeWord_encValue_too_wide,
    fun _ => decodeWord_decByte_too_wide, fun _ w hIn hByte => decodeWord_no_port hIn hByte w⟩

end Sys2Proof.Machine
end

section
/-! PROOFS. What a host can tell of one datapath, event by event, and that the other datapath has no part in it (R14,
R33). No lemma here speaks of a free value: an output that has not settled is not compared. -/

namespace Sys2Proof.Machine

/-! ### What can be told of a datapath after an event -/

/-- An input carries a value exactly when that value was driven on it. -/
theorem encDriven_eq_some_iff {v : EncValue} {s : State} : encDriven s = some v ↔ encCarries v s = true := by
  rw [encCarries_iff]
  by_cases h : s.enc.phase = .undriven
  · simp [encDriven_of_undriven h, h]
  · simp [encDriven_of_driven h, h]

theorem decDriven_eq_some_iff {b : Byte} {s : State} : decDriven s = some b ↔ decCarries b s = true := by
  rw [decCarries_iff]
  by_cases h : s.dec.phase = .undriven
  · simp [decDriven_of_undriven h, h]
  · simp [decDriven_of_driven h, h]

theorem sampleEnc_driveEnc (v : EncValue) (s : State) :
    sampleEnc (driveEnc v s) = if encDriven s = some v then sampleEnc s else none := by
  simp only [encDriven_eq_some_iff]
  split
  next h => rw [driveEnc_of_carries h]
  next h => rw [driveEnc_of_change h]; rfl

theorem sampleDec_driveDec (b : Byte) (s : State) :
    sampleDec (driveDec b s) = if decDriven s = some b then sampleDec s else none := by
  simp only [decDriven_eq_some_iff]
  split
  next h => rw [driveDec_of_carries h]
  next h => rw [driveDec_of_change h]; rfl

theorem driveEnc_enc_phase (v : EncValue) (s : State) :
    (driveEnc v s).enc.phase = if encDriven s = some v then s.enc.phase else .changing := by
  simp only [encDriven_eq_some_iff]
  split
  next h => rw [driveEnc_of_carries h]
  next h => rw [driveEnc_of_change h]

theorem driveDec_dec_phase (b : Byte) (s : State) :
    (driveDec b s).dec.phase = if decDriven s = some b then s.dec.phase else .changing := by
  simp only [decDriven_eq_some_iff]
  split
  next h => rw [driveDec_of_carries h]
  next h => rw [driveDec_of_change h]

@[simp] theorem sampleEnc_driveDec (b : Byte) (s : State) : sampleEnc (driveDec b s) = sampleEnc s :=
  sampleEnc_congr (driveDec_enc b s)

@[simp] theorem sampleDec_driveEnc (v : EncValue) (s : State) : sampleDec (driveEnc v s) = sampleDec s :=
  sampleDec_congr (driveEnc_dec v s)

/-- Each side of the state after a wait is the one its own datapath settles to. -/
theorem afterStep_enc (s : State) : (afterStep s).enc = (stepEnc s).enc := step_enc (step_eq_next_afterStep s)

theorem afterStep_dec (s : State) : (afterStep s).dec = (stepDec s).dec := step_dec (step_eq_next_afterStep s)

theorem stepEnc_of_undriven {s : State} (h : s.enc.phase = .undriven) : stepEnc s = s := by
  rw [stepEnc, encDriven_of_undriven h]

theorem stepEnc_of_driven {s : State} (h : s.enc.phase ≠ .undriven) :
    stepEnc s = settleEnc s.enc.value (evalEncode s.enc.value) s := by
  rw [stepEnc, encDriven_of_driven h]

theorem stepDec_of_undriven {s : State} (h : s.dec.phase = .undriven) : stepDec s = s := by
  rw [stepDec, decDriven_of_undriven h]

theorem stepDec_of_driven {s : State} (h : s.dec.phase ≠ .undriven) :
    stepDec s = settleDec s.dec.byte (evalDecode s.dec.byte) s := by
  rw [stepDec, decDriven_of_driven h]

/-- After a wait the encoder shows ENCODE of what is driven (R18), and nothing where nothing is driven (R92). -/
theorem sampleEnc_afterStep (s : State) : sampleEnc (afterStep s) = (encDriven s).map encodeResult := by
  rw [sampleEnc_congr (afterStep_enc s)]
  by_cases h : s.enc.phase = .undriven
  · rw [stepEnc_of_undriven h, encDriven_of_undriven h, sampleEnc_of_not_settled (by rw [h]; nofun)]
    rfl
  · rw [stepEnc_of_driven h, encDriven_of_driven h, sampleEnc_of_settled rfl]
    rfl

theorem sampleDec_afterStep (s : State) : sampleDec (afterStep s) = (decDriven s).map (decodeResult Config.wOut) := by
  rw [sampleDec_congr (afterStep_dec s)]
  by_cases h : s.dec.phase = .undriven
  · rw [stepDec_of_undriven h, decDriven_of_undriven h, sampleDec_of_not_settled (by rw [h]; nofun)]
    rfl
  · rw [stepDec_of_driven h, decDriven_of_driven h, sampleDec_of_settled rfl]
    rfl

theorem encDriven_congr {s t : State} (h : s.enc = t.enc) : encDriven s = encDriven t := by
  simp only [encDriven, h]

theorem decDriven_congr {s t : State} (h : s.dec = t.dec) : decDriven s = decDriven t := by
  simp only [decDriven, h]

/-- A wait drives nothing. -/
@[simp] theorem encDriven_afterStep (s : State) : encDriven (afterStep s) = encDriven s := by
  rw [encDriven_congr (afterStep_enc s)]
  by_cases h : s.enc.phase = .undriven
  · rw [stepEnc_of_undriven h]
  · rw [stepEnc_of_driven h, encDriven_of_driven h]
    rfl

@[simp] theorem decDriven_afterStep (s : State) : decDriven (afterStep s) = decDriven s := by
  rw [decDriven_congr (afterStep_dec s)]
  by_cases h : s.dec.phase = .undriven
  · rw [stepDec_of_undriven h]
  · rw [stepDec_of_driven h, decDriven_of_driven h]
    rfl

theorem afterStep_enc_phase (s : State) :
    (afterStep s).enc.phase = if s.enc.phase = .undriven then .undriven else .settled := by
  rw [afterStep_enc]
  split
  next h => rw [stepEnc_of_undriven h, h]
  next h => rw [stepEnc_of_driven h, settleEnc_enc_phase]

theorem afterStep_dec_phase (s : State) :
    (afterStep s).dec.phase = if s.dec.phase = .undriven then .undriven else .settled := by
  rw [afterStep_dec]
  split
  next h => rw [stepDec_of_undriven h, h]
  next h => rw [stepDec_of_driven h, settleDec_dec_phase]

/-! ### The encoder alone -/

/-- A host can tell nothing apart on the encoder's side of two states. -/
structure EncoderAgrees (s t : State) : Prop where
  sample : sampleEnc s = sampleEnc t
  driven : encDriven s = encDriven t
  phase : s.enc.phase = t.enc.phase

theorem EncoderAgrees.driveEnc {s t : State} (h : EncoderAgrees s t) (v : EncValue) :
    EncoderAgrees (driveEnc v s) (driveEnc v t) where
  sample := by simp only [sampleEnc_driveEnc, h.sample, h.driven]
  driven := by simp only [encDriven_driveEnc]
  phase := by simp only [driveEnc_enc_phase, h.driven, h.phase]

theorem EncoderAgrees.driveDec {s t : State} (h : EncoderAgrees s t) (b : Byte) : EncoderAgrees (driveDec b s) t where
  sample := by rw [sampleEnc_driveDec, h.sample]
  driven := by rw [encDriven_driveDec, h.driven]
  phase := by rw [driveDec_enc, h.phase]

theorem EncoderAgrees.afterStep {s t : State} (h : EncoderAgrees s t) : EncoderAgrees (afterStep s) (afterStep t) where
  sample := by rw [sampleEnc_afterStep, sampleEnc_afterStep, h.driven]
  driven := by rw [encDriven_afterStep, encDriven_afterStep, h.driven]
  phase := by rw [afterStep_enc_phase, afterStep_enc_phase, h.phase]

/-- Leaving the drives of `DEC_BYTE` out of a run makes no difference on the encoder's side. -/
theorem EncoderAgrees.runEvents_encoderAlone {s t : State} (h : EncoderAgrees s t) (es : List HostEvent) :
    EncoderAgrees (runEvents es s) (runEvents (encoderAlone es) t) := by
  induction es generalizing s t with
  | nil => exact h
  | cons e es ih =>
    match e with
    | .drive (.encValue v) => exact ih (h.driveEnc v)
    | .drive (.decByte b) => exact ih (h.driveDec b)
    | .wait => exact ih h.afterStep

/-! ### The decoder alone -/

/-- A host can tell nothing apart on the decoder's side of two states. -/
structure DecoderAgrees (s t : State) : Prop where
  sample : sampleDec s = sampleDec t
  driven : decDriven s = decDriven t
  phase : s.dec.phase = t.dec.phase

theorem DecoderAgrees.driveDec {s t : State} (h : DecoderAgrees s t) (b : Byte) :
    DecoderAgrees (driveDec b s) (driveDec b t) where
  sample := by simp only [sampleDec_driveDec, h.sample, h.driven]
  driven := by simp only [decDriven_driveDec]
  phase := by simp only [driveDec_dec_phase, h.driven, h.phase]

theorem DecoderAgrees.driveEnc {s t : State} (h : DecoderAgrees s t) (v : EncValue) :
    DecoderAgrees (driveEnc v s) t where
  sample := by rw [sampleDec_driveEnc, h.sample]
  driven := by rw [decDriven_driveEnc, h.driven]
  phase := by rw [driveEnc_dec, h.phase]

theorem DecoderAgrees.afterStep {s t : State} (h : DecoderAgrees s t) : DecoderAgrees (afterStep s) (afterStep t) where
  sample := by rw [sampleDec_afterStep, sampleDec_afterStep, h.driven]
  driven := by rw [decDriven_afterStep, decDriven_afterStep, h.driven]
  phase := by rw [afterStep_dec_phase, afterStep_dec_phase, h.phase]

/-- Leaving the drives of `ENC_VALUE` out of a run makes no difference on the decoder's side. -/
theorem DecoderAgrees.runEvents_decoderAlone {s t : State} (h : DecoderAgrees s t) (es : List HostEvent) :
    DecoderAgrees (runEvents es s) (runEvents (decoderAlone es) t) := by
  induction es generalizing s t with
  | nil => exact h
  | cons e es ih =>
    match e with
    | .drive (.encValue v) => exact ih (h.driveEnc v)
    | .drive (.decByte b) => exact ih (h.driveDec b)
    | .wait => exact ih h.afterStep

/-- Settles O38: agreement on one side survives a drive of the other side in one of the two runs, and each drive of its
own side and each wait in both. -/
theorem eachDatapathRunsAsIfAlone : Obligations.EachDatapathRunsAsIfAlone := by
  intro es s
  have enc := EncoderAgrees.runEvents_encoderAlone (s := s) ⟨rfl, rfl, rfl⟩ es
  have dec := DecoderAgrees.runEvents_decoderAlone (s := s) ⟨rfl, rfl, rfl⟩ es
  exact ⟨⟨enc.sample, enc.driven, enc.phase⟩, ⟨dec.sample, dec.driven, dec.phase⟩⟩

end Sys2Proof.Machine
end

section
/-! PROOFS. The byte of ENCODE in closed form, the bucket it stands for (R71), and what can be observed in every
reachable state. -/

namespace Sys2Proof.Machine

/-! ### The byte of an input in range -/

theorem encodeByte_small {v : Nat} (h : v < 32) : encodeByte v = v := by
  rw [encodeByte_inRange (h.le.trans (by decide))]
  by_cases h16 : v < 16
  · rw [encodeFields_shift_zero h16, packFields_eq_sum (by omega) h16]
    omega
  · rw [encodeFields_shift_one (by omega) h, packFields_eq_sum (by omega) (by omega)]
    omega

/-- From 32 up the byte counts half steps above the leading one, and the carry of the rounding moves into the shift
field (R57, R59). -/
theorem encodeByte_normalizer {v : Nat} (hlo : 32 ≤ v) (hhi : v ≤ Config.cMax) :
    encodeByte v + 16 = 16 * (v.log2 - 3) + (v / 2 ^ (v.log2 - 5) + 1) / 2 := by
  obtain ⟨hmsb, hk5, hk18, hw32, hw63, htop⟩ := leading_one_of_normalizer_input hlo hhi
  have hfields : encodeFields v = (shiftOf (normIndex v), mantissaOf (normWindow v)) := encodeFields_normalizer hlo
  rw [encodeByte_inRange hhi, hfields, normIndex, normWindow, hmsb, windowBits_eq_div, roundedWindow_eq_add_mod,
    renormIndex_eq_add, mantissaOf_eq_div_mod, shiftOf]
  generalize v / 2 ^ (v.log2 - 5) = q at *
  rw [packFields_eq_sum (by omega) (by omega)]
  omega

/-! ### The buckets (R71) -/

theorem bucketLo_of_shift_le_one {s : Nat} (h : s ≤ 1) (m : Nat) : bucketLo s m = 16 * s + m := if_pos h

theorem bucketHi_of_shift_le_one {s : Nat} (h : s ≤ 1) (m : Nat) : bucketHi s m = 16 * s + m := if_pos h

/-- From shift 2 up a bucket reaches half a step above its decoded value, in the half step of its own shift. -/
theorem bucketHi_add_one (j m : Nat) : bucketHi (j + 2) m + 1 = (33 + 2 * m) * 2 ^ j := by
  have hpos : 0 < 2 ^ j := by positivity
  have hstep : (16 + m) * 2 ^ (j + 1) = (32 + 2 * m) * 2 ^ j := by ring
  have hsum : (33 + 2 * m) * 2 ^ j = (32 + 2 * m) * 2 ^ j + 2 ^ j := by ring
  by_cases hm : 1 ≤ m
  · rw [bucketHi, if_neg (by omega), if_pos hm, show j + 2 - 1 = j + 1 from rfl, Nat.add_sub_cancel, hstep]
    omega
  · obtain rfl : m = 0 := by omega
    rw [bucketHi, if_neg (by omega), if_neg hm]
    split
    next h =>
      obtain rfl : j = 0 := by omega
      rfl
    next h =>
      rw [show j + 2 - 1 = j + 1 from rfl, Nat.add_sub_cancel, hstep]
      omega

/-- With a mantissa above 0 it reaches as far below. -/
theorem bucketLo_of_mantissa_pos (j : Nat) {m : Nat} (hm : 1 ≤ m) : bucketLo (j + 2) m = (31 + 2 * m) * 2 ^ j := by
  have hstep : (16 + m) * 2 ^ (j + 1) = (31 + 2 * m) * 2 ^ j + 2 ^ j := by ring
  rw [bucketLo, if_neg (by omega), if_pos hm, show j + 2 - 1 = j + 1 from rfl, Nat.add_sub_cancel, hstep,
    Nat.add_sub_cancel]

/-- With a mantissa of 0 it reaches below into the run of the shift before, whose half step is half as long. -/
theorem bucketLo_of_mantissa_zero (j : Nat) : bucketLo (j + 3) 0 = 63 * 2 ^ j := by
  have hstep : 16 * 2 ^ (j + 2) = 63 * 2 ^ j + 2 ^ j := by ring
  rw [bucketLo, if_neg (by omega), if_neg (by omega), if_neg (by omega), show j + 3 - 1 = j + 2 from rfl,
    Nat.add_sub_cancel, hstep, Nat.add_sub_cancel]

/-- A bucket of mantissa 0 starts at its decoded value or below it. -/
theorem bucketLo_zero_le (j : Nat) : bucketLo (j + 2) 0 ≤ 32 * 2 ^ j := by
  cases j with
  | zero => decide
  | succ j => rw [bucketLo_of_mantissa_zero, pow_succ]; omega

/-- `v` lies in the bucket of the byte `b`, both as numbers. -/
def InBucket (b v : Nat) : Prop := bucketLo (b / 16) (b % 16) ≤ v ∧ v ≤ bucketHi (b / 16) (b % 16)

theorem inBucket_encodeByte_small {v : Nat} (h : v < 32) : InBucket (encodeByte v) v := by
  rw [InBucket, encodeByte_small h, bucketLo_of_shift_le_one (by omega), bucketHi_of_shift_le_one (by omega)]
  omega

/-- The window `q` of `v` says in which half step above the leading one `v` lies; its rounding `h` names the byte. -/
theorem inBucket_of_window {v j q h : Nat} (hlo : q * 2 ^ j ≤ v) (hhi : v < (q + 1) * 2 ^ j) (hq32 : 32 ≤ q)
    (hq63 : q ≤ 63) (hh : h = (q + 1) / 2) : InBucket (16 * (j + 1) + h) v := by
  have scale : ∀ {a c : Nat}, a ≤ c → a * 2 ^ j ≤ c * 2 ^ j := fun hac => Nat.mul_le_mul_right _ hac
  rcases Nat.lt_or_ge h 32 with hcarry | hcarry
  · obtain ⟨m, rfl⟩ : ∃ m, h = 16 + m := ⟨h - 16, by omega⟩
    rw [InBucket, show (16 * (j + 1) + (16 + m)) / 16 = j + 2 by omega,
      show (16 * (j + 1) + (16 + m)) % 16 = m by omega]
    constructor
    · by_cases hm : 1 ≤ m
      · rw [bucketLo_of_mantissa_pos j hm]
        exact (scale (by omega)).trans hlo
      · obtain rfl : m = 0 := by omega
        exact (bucketLo_zero_le j).trans ((scale hq32).trans hlo)
    · rw [← Nat.lt_succ_iff, Nat.succ_eq_add_one, bucketHi_add_one]
      exact hhi.trans_le (scale (by omega))
  · rw [InBucket, show (16 * (j + 1) + h) / 16 = j + 3 by omega, show (16 * (j + 1) + h) % 16 = 0 by omega]
    constructor
    · rw [bucketLo_of_mantissa_zero]
      exact (scale (by omega)).trans hlo
    · rw [← Nat.lt_succ_iff, Nat.succ_eq_add_one, bucketHi_add_one (j + 1)]
      calc v < (q + 1) * 2 ^ j := hhi
        _ ≤ 66 * 2 ^ j := scale (by omega)
        _ = (33 + 2 * 0) * 2 ^ (j + 1) := by ring

/-- Every input in range lies in the bucket of its byte (R71). -/
theorem inBucket_encodeByte {v : Nat} (hv : v ≤ Config.cMax) : InBucket (encodeByte v) v := by
  rcases Nat.lt_or_ge v 32 with hsmall | hlarge
  · exact inBucket_encodeByte_small hsmall
  · obtain ⟨-, hk5, -, hq32, hq63, -⟩ := leading_one_of_normalizer_input hlarge hv
    have hbyte := encodeByte_normalizer hlarge hv
    have hb : encodeByte v = 16 * (v.log2 - 5 + 1) + (v / 2 ^ (v.log2 - 5) + 1) / 2 := by omega
    rw [hb]
    exact inBucket_of_window (Nat.div_mul_le_self _ _) (Nat.lt_mul_of_div_lt (Nat.lt_succ_self _) (by positivity))
      hq32 hq63 rfl

/-! ### The pair of ENCODE, read back from its flag -/

theorem encodeResult_inRange {w : Nat} {u : BitVec w} (h : u.toNat ≤ Config.cMax) :
    encodeResult u = (BitVec.ofNat 8 (encodeByte u.toNat), true) := by
  rw [encodeResult, (exactFlag_iff _).mpr h]

theorem saturated_of_encodeResult {w : Nat} {u : BitVec w} {byte : Byte} (h : encodeResult u = (byte, false)) :
    byte = 0xFF ∧ Config.cMax < u.toNat := by
  rcases Nat.lt_or_ge Config.cMax u.toNat with hu | hu
  · rw [encodeResult_saturated hu] at h
    cases h
    exact ⟨rfl, hu⟩
  · rw [encodeResult_inRange hu] at h
    cases h

theorem inBucket_of_encodeResult {w : Nat} {u : BitVec w} {byte : Byte} (h : encodeResult u = (byte, true)) :
    u.toNat ≤ Config.cMax ∧ InBucket byte.toNat u.toNat := by
  rcases Nat.lt_or_ge Config.cMax u.toNat with hu | hu
  · rw [encodeResult_saturated hu] at h
    cases h
  · rw [encodeResult_inRange hu] at h
    cases h
    rw [BitVec.toNat_ofNat, Nat.mod_eq_of_lt (encodeByte_lt _)]
    exact ⟨hu, inBucket_encodeByte hu⟩

/-! ### What can be observed -/

theorem settled_of_sampleEnc {s : State} {p : Byte × Bool} (h : sampleEnc s = some p) : s.enc.phase = .settled := by
  by_contra hs
  rw [sampleEnc_of_not_settled hs] at h
  cases h

theorem settled_of_sampleDec {s : State} {v : DecValue} (h : sampleDec s = some v) : s.dec.phase = .settled := by
  by_contra hs
  rw [sampleDec_of_not_settled hs] at h
  cases h

/-- Where the ports follow their inputs, what is observed is the operation on the input (R18). -/
theorem encodeResult_of_sampleEnc {s : State} (hs : PortsFollowInputs s) {p : Byte × Bool}
    (h : sampleEnc s = some p) : encodeResult s.enc.value = p := by
  have hset := settled_of_sampleEnc h
  rw [sampleEnc_of_settled hset, Option.some.injEq] at h
  exact (hs.encoder hset).symm.trans h

theorem decodeResult_of_sampleDec {s : State} (hs : PortsFollowInputs s) {v : DecValue}
    (h : sampleDec s = some v) : decodeResult Config.wOut s.dec.byte = v := by
  have hset := settled_of_sampleDec h
  rw [sampleDec_of_settled hset, Option.some.injEq] at h
  exact (hs.decoder hset).symm.trans h

theorem observationsObeySpec_of_portsFollowInputs {s : State} (hs : PortsFollowInputs s) : ObservationsObeySpec s where
  saturated _ h := saturated_of_encodeResult (encodeResult_of_sampleEnc hs h)
  inRange _ h := inBucket_of_encodeResult (encodeResult_of_sampleEnc hs h)
  decoded _ h _ hk := by
    rw [← decodeResult_of_sampleDec hs h]
    exact decodeResult_upper_bits Config.widths.wOut_legal hk s.dec.byte

/-- Settles O53: in a reachable state each settled output is its operation on the input, and what ENCODE and
DECODE give obeys the spec. -/
theorem reachableObservationsObeyTheSpec : Obligations.ReachableObservationsObeyTheSpec :=
  fun _ h => observationsObeySpec_of_portsFollowInputs (portsFollowInputs_of_reachable h)

end Sys2Proof.Machine
end

section
/-! PROOFS. The two operations repeated and in either order (R31, R33, R77), and the outputs after any sequence of drives
and waits (R18, R33). -/

namespace Sys2Proof.Machine

/-! ### Settling twice, and settling both sides -/

/-- Of two evaluations of the encoder nothing of the first is left. -/
@[simp] theorem settleEnc_settleEnc (v v' : EncValue) (e e' : EncEvaluation) (s : State) :
    settleEnc v e (settleEnc v' e' s) = settleEnc v e s := rfl

@[simp] theorem settleDec_settleDec (b b' : Byte) (e e' : DecEvaluation) (s : State) :
    settleDec b e (settleDec b' e' s) = settleDec b e s := rfl

/-- The two sides share nothing (R14), so the order in which they settle makes no difference. -/
theorem settleDec_settleEnc (v : EncValue) (e : EncEvaluation) (b : Byte) (d : DecEvaluation) (s : State) :
    settleDec b d (settleEnc v e s) = settleEnc v e (settleDec b d s) := rfl

/-- Settles O34: the second evaluation reads the same input and overwrites the first one's outputs with its own. -/
theorem repeatingAnOperationChangesNothing : Obligations.RepeatingAnOperationChangesNothing := by
  refine ⟨fun v s => ⟨_, exec_encode v s, ?_⟩, fun b s => ⟨_, exec_decode b s, ?_⟩⟩
  · rw [exec_encode, settleEnc_settleEnc]
  · rw [exec_decode, settleDec_settleDec]

/-- Settles O36: neither operation reads the state, and each settles its own side. -/
theorem encodeAndDecodeCommute : Obligations.EncodeAndDecodeCommute := by
  intro v b s
  refine ⟨_, _, _, exec_encode v s, exec_decode b _, exec_decode b s, ?_⟩
  rw [exec_encode, settleDec_settleEnc]

/-! ### What a run of events drives and keeps -/

theorem runEvents_append (es fs : List HostEvent) (s : State) :
    runEvents (es ++ fs) s = runEvents fs (runEvents es s) := by
  induction es generalizing s with
  | nil => rfl
  | cons e es ih => exact ih (applyEvent e s)

/-- `lastEncDriven` is what the run leaves driven on `ENC_VALUE`. -/
theorem encDriven_runEvents (es : List HostEvent) (s : State) :
    encDriven (runEvents es s) = lastEncDriven es (encDriven s) := by
  induction es generalizing s with
  | nil => rfl
  | cons e es ih =>
    rw [runEvents, ih]
    match e with
    | .drive (.encValue v) => simp only [applyEvent, drive, encDriven_driveEnc, lastEncDriven]
    | .drive (.decByte b) => simp only [applyEvent, drive, encDriven_driveDec, lastEncDriven]
    | .wait => simp only [applyEvent, encDriven_afterStep, lastEncDriven]

theorem decDriven_runEvents (es : List HostEvent) (s : State) :
    decDriven (runEvents es s) = lastDecDriven es (decDriven s) := by
  induction es generalizing s with
  | nil => rfl
  | cons e es ih =>
    rw [runEvents, ih]
    match e with
    | .drive (.encValue v) => simp only [applyEvent, drive, decDriven_driveEnc, lastDecDriven]
    | .drive (.decByte b) => simp only [applyEvent, drive, decDriven_driveDec, lastDecDriven]
    | .wait => simp only [applyEvent, decDriven_afterStep, lastDecDriven]

theorem portsFollowInputs_applyEvent {s : State} (hs : PortsFollowInputs s) (e : HostEvent) :
    PortsFollowInputs (applyEvent e s) := by
  cases e with
  | drive p => exact portsFollowInputs_drive hs p
  | wait => exact portsFollowInputs_step hs (step_eq_next_afterStep s)

theorem portsFollowInputs_runEvents {s : State} (hs : PortsFollowInputs s) (es : List HostEvent) :
    PortsFollowInputs (runEvents es s) := by
  induction es generalizing s with
  | nil => exact hs
  | cons e es ih => exact ih (portsFollowInputs_applyEvent hs e)

/-! ### What is sampled, as a function of what is driven -/

/-- ENCODE can be observed as soon as it completes (R96). -/
theorem sampleEnc_settleEnc (v : EncValue) (s : State) :
    sampleEnc (settleEnc v (evalEncode v) s) = some (encodeResult v) :=
  sampleEnc_of_settled (settleEnc_enc_phase v (evalEncode v) s)

theorem sampleDec_settleDec (b : Byte) (s : State) :
    sampleDec (settleDec b (evalDecode b) s) = some (decodeResult Config.wOut b) :=
  sampleDec_of_settled (settleDec_dec_phase b (evalDecode b) s)

/-- Where the ports follow their inputs, the encoder shows nothing or ENCODE of what is driven. -/
theorem sampleEnc_of_portsFollowInputs {s : State} (hs : PortsFollowInputs s) :
    sampleEnc s = none ∨ ∃ v, encDriven s = some v ∧ sampleEnc s = some (encodeResult v) := by
  cases h : sampleEnc s with
  | none => exact .inl rfl
  | some p =>
    have hdriven : s.enc.phase ≠ .undriven := by rw [settled_of_sampleEnc h]; nofun
    exact .inr ⟨s.enc.value, encDriven_of_driven hdriven, by rw [encodeResult_of_sampleEnc hs h]⟩

theorem sampleDec_of_portsFollowInputs {s : State} (hs : PortsFollowInputs s) :
    sampleDec s = none ∨ ∃ b, decDriven s = some b ∧ sampleDec s = some (decodeResult Config.wOut b) := by
  cases h : sampleDec s with
  | none => exact .inl rfl
  | some v =>
    have hdriven : s.dec.phase ≠ .undriven := by rw [settled_of_sampleDec h]; nofun
    exact .inr ⟨s.dec.byte, decDriven_of_driven hdriven, by rw [decodeResult_of_sampleDec hs h]⟩

/-- After a wait at the end the encoder shows ENCODE of what was last driven. -/
theorem sampleEnc_runEvents_wait (es : List HostEvent) (s : State) :
    sampleEnc (runEvents (es ++ [.wait]) s) = (lastEncDriven es (encDriven s)).map encodeResult := by
  rw [runEvents_append, ← encDriven_runEvents]
  exact sampleEnc_afterStep (runEvents es s)

theorem sampleDec_runEvents_wait (es : List HostEvent) (s : State) :
    sampleDec (runEvents (es ++ [.wait]) s) = (lastDecDriven es (decDriven s)).map (decodeResult Config.wOut) := by
  rw [runEvents_append, ← decDriven_runEvents]
  exact sampleDec_afterStep (runEvents es s)

/-- What the encoder shows after a run is what ENCODE of the last input would show, run from anywhere. -/
theorem sampleEnc_runEvents {s : State} (hs : PortsFollowInputs s) (es : List HostEvent) (s₀ : State) :
    sampleEnc (runEvents es s) = none ∨ ∃ v t, lastEncDriven es (encDriven s) = some v ∧
      exec (.encode v) s₀ = .next t ∧ sampleEnc (runEvents es s) = sampleEnc t := by
  refine (sampleEnc_of_portsFollowInputs (portsFollowInputs_runEvents hs es)).imp_right ?_
  rintro ⟨v, hv, hsample⟩
  exact ⟨v, _, encDriven_runEvents es s ▸ hv, exec_encode v s₀, hsample.trans (sampleEnc_settleEnc v s₀).symm⟩

theorem sampleDec_runEvents {s : State} (hs : PortsFollowInputs s) (es : List HostEvent) (s₀ : State) :
    sampleDec (runEvents es s) = none ∨ ∃ b t, lastDecDriven es (decDriven s) = some b ∧
      exec (.decode b) s₀ = .next t ∧ sampleDec (runEvents es s) = sampleDec t := by
  refine (sampleDec_of_portsFollowInputs (portsFollowInputs_runEvents hs es)).imp_right ?_
  rintro ⟨b, hb, hsample⟩
  exact ⟨b, _, decDriven_runEvents es s ▸ hb, exec_decode b s₀, hsample.trans (sampleDec_settleDec b s₀).symm⟩

/-- Settles O39: every event keeps the ports following their inputs, and a wait evaluates what is driven. -/
theorem everyInterleavingKeepsResults : Obligations.EveryInterleavingKeepsResults := by
  intro es s
  refine ⟨fun hs => ⟨sampleEnc_runEvents hs es s, sampleDec_runEvents hs es s⟩, fun v hv => ?_, fun b hb => ?_⟩
  · refine ⟨_, exec_encode v s, ?_⟩
    rw [sampleEnc_runEvents_wait, hv, sampleEnc_settleEnc, Option.map_some]
  · refine ⟨_, exec_decode b s, ?_⟩
    rw [sampleDec_runEvents_wait, hb, sampleDec_settleDec, Option.map_some]

end Sys2Proof.Machine
end

section
/-! PROOFS. The bits of a transaction and its operation (R44, R49), and that a step runs the operations of what is on
the ports (R96). -/

namespace Sys2Proof.Machine

/-! ### Port words and operations -/

/-- A port word's own width and bits select that port word again. -/
theorem portWord_nbits_bits (p : PortWord) : portWord p.nbits p.bits = .ok p := by
  cases p with
  | encValue v =>
    rw [PortWord.nbits, PortWord.bits, portWord, if_pos rfl, if_pos v.isLt, BitVec.ofNat_toNat, BitVec.setWidth_eq]
  | decByte b =>
    rw [PortWord.nbits, PortWord.bits, portWord, Config.byteBits, if_neg (by decide), if_pos rfl, if_pos b.isLt,
      BitVec.ofNat_toNat, BitVec.setWidth_eq]

theorem decodeWord_nbits_bits (p : PortWord) : decodeWord p.nbits p.bits = .ok (decodePort p) := by
  rw [decodeWord, portWord_nbits_bits]

/-- A pattern decodes by way of the one port word it is presented as. -/
theorem portWord_of_decodeWord {n w : Nat} {i : Instr} (h : decodeWord n w = .ok i) :
    ∃ p, portWord n w = .ok p ∧ decodePort p = i := by
  rw [decodeWord] at h
  cases hp : portWord n w with
  | ok p => rw [hp] at h; cases h; exact ⟨p, rfl, rfl⟩
  | error e => rw [hp] at h; cases h

theorem encodeInstr_decodePort (p : PortWord) : encodeInstr (decodePort p) = some p := by
  cases p <;> rfl

theorem decodePort_isExternal (p : PortWord) : (decodePort p).isExternal = true := by
  cases p <;> rfl

/-- Every operand of their widths is legal for ENCODE and DECODE (R27, R40). -/
theorem decodePort_wf (p : PortWord) : (decodePort p).wf = true := by
  cases p <;> rfl

/-- The operations a port can invoke are those of the port words (R44, R45). -/
theorem isExternal_iff_decodePort {i : Instr} : i.isExternal = true ↔ ∃ p, decodePort p = i := by
  constructor
  · intro hi
    cases i with
    | encode v => exact ⟨.encValue v, rfl⟩
    | decode b => exact ⟨.decByte b, rfl⟩
    | _ => cases hi
  · rintro ⟨p, rfl⟩
    exact decodePort_isExternal p

theorem encodeInstr_internal {i : Instr} (hi : i.isExternal = false) : encodeInstr i = none := by
  cases i with
  | encode v => cases hi
  | decode b => cases hi
  | _ => rfl

/-- Settles O46: port words stand between patterns and operations, one to one with the patterns that fit a port and with
the external operations. -/
theorem transactionBitsDecodeToTheirOperation : Obligations.TransactionBitsDecodeToTheirOperation := by
  refine ⟨fun i hi => ?_, fun n w i h => ?_, fun i hi => encodeInstr_internal hi⟩
  · obtain ⟨p, rfl⟩ := isExternal_iff_decodePort.mp hi
    exact ⟨p, encodeInstr_decodePort p, decodeWord_nbits_bits p⟩
  · obtain ⟨p, hp, rfl⟩ := portWord_of_decodeWord h
    exact ⟨decodePort_isExternal p, decodePort_wf p, p, encodeInstr_decodePort p, portWord_eq_ok hp⟩

/-! ### A step runs what is presented -/

theorem step_eq_runPorts {s : State} {ps : List PortWord} (h : presented s = ps) : step s = runPorts ps s := by
  rw [step, settlePorts, h]

/-- The operation of a port word always completes (R80). -/
theorem exec_decodePort_next (p : PortWord) (s : State) : ∃ t, exec (decodePort p) s = .next t := by
  cases p with
  | encValue v => exact ⟨_, exec_encode v s⟩
  | decByte b => exact ⟨_, exec_decode b s⟩

theorem runPorts_cons {p : PortWord} {s t : State} (h : exec (decodePort p) s = .next t) (ps : List PortWord) :
    runPorts (p :: ps) s = runPorts ps t := by
  rw [runPorts, h]

theorem runPorts_singleton (p : PortWord) (s : State) : runPorts [p] s = exec (decodePort p) s := by
  obtain ⟨t, ht⟩ := exec_decodePort_next p s
  rw [runPorts_cons ht, ht, runPorts]

theorem presented_eq_nil_iff {s : State} : presented s = [] ↔ encDriven s = none ∧ decDriven s = none := by
  cases he : encDriven s <;> cases hd : decDriven s <;> simp [presented, he, hd]

/-- Where nothing was driven before, a drive presents its own port word alone. -/
theorem presented_drive {s : State} (h : presented s = []) (p : PortWord) : presented (drive p s) = [p] := by
  obtain ⟨henc, hdec⟩ := presented_eq_nil_iff.mp h
  cases p with
  | encValue v => rw [drive, presented, encDriven_driveEnc, decDriven_driveEnc, hdec]; rfl
  | decByte b => rw [drive, presented, encDriven_driveDec, decDriven_driveDec, henc]; rfl

/-- After a drive a step leaves the driven side as the operation of the port word does. -/
theorem step_drive_enc {v : EncValue} {s t : State} (h : step (driveEnc v s) = .next t) :
    t.enc = (settleEnc v (evalEncode v) (driveEnc v s)).enc := by
  rw [step_enc h, stepEnc_of_driven (driveEnc_enc_phase_ne v s), driveEnc_enc_value]

theorem step_drive_dec {b : Byte} {s t : State} (h : step (driveDec b s) = .next t) :
    t.dec = (settleDec b (evalDecode b) (driveDec b s)).dec := by
  rw [step_dec h, stepDec_of_driven (driveDec_dec_phase_ne b s), driveDec_dec_byte]

theorem withFetchWord_of_portWord {n w : Nat} {p : PortWord} (h : portWord n w = .ok p) (s : State) :
    s.withFetchWord n w = drive p s := by
  rw [State.withFetchWord, h]

/-- What a step after a drive shares with the operation of the driven port word. -/
theorem step_drive_agrees (p : PortWord) (s : State) :
    ∃ t u, step (drive p s) = .next t ∧ exec (decodePort p) (drive p s) = .next u ∧
      (∀ v, decodePort p = .encode v → t.enc = u.enc) ∧ (∀ b, decodePort p = .decode b → t.dec = u.dec) ∧
      (presented s = [] → t = u) := by
  obtain ⟨u, hu⟩ := exec_decodePort_next p (drive p s)
  have hstep := step_eq_next_afterStep (drive p s)
  refine ⟨_, u, hstep, hu, fun v hv => ?_, fun b hb => ?_, fun hs => ?_⟩
  · cases p with
    | encValue v' => cases hu; exact step_drive_enc hstep
    | decByte b => cases hv
  · cases p with
    | encValue v => cases hb
    | decByte b' => cases hu; exact step_drive_dec hstep
  · rw [step_eq_runPorts (presented_drive hs p), runPorts_singleton, hu] at hstep
    cases hstep
    rfl

/-- Settles O44: a step is `runPorts` of what is presented, and a pattern that decodes is a drive of its port word. -/
theorem stepRunsThePresentedOperation : Obligations.StepRunsThePresentedOperation := by
  refine ⟨fun s h => step_eq_runPorts h, fun p s h => ?_, fun p q s h => ?_, fun n w i s h => ?_⟩
  · rw [step_eq_runPorts h, runPorts_singleton]
  · obtain ⟨t, ht⟩ := exec_decodePort_next p s
    exact ⟨t, ht, by rw [step_eq_runPorts h, runPorts_cons ht, runPorts_singleton]⟩
  · obtain ⟨p, hp, rfl⟩ := portWord_of_decodeWord h
    rw [withFetchWord_of_portWord hp]
    exact step_drive_agrees p s

end Sys2Proof.Machine
end

section
/-! PROOFS. What can be observed obeys the spec after every step, operation and drive, from any state in which it does
(R43, R62, R64, R71); and that no stage reaches a port (R45). -/

namespace Sys2Proof.Machine

/-- What the encoder shows once it has settled is ENCODE of its input, whatever it showed before. -/
theorem observationsObeySpec_settleEnc {s : State} (h : ObservationsObeySpec s) (v : EncValue) :
    ObservationsObeySpec (settleEnc v (evalEncode v) s) where
  saturated _ hb := saturated_of_encodeResult (Option.some.inj ((sampleEnc_settleEnc v s).symm.trans hb))
  inRange _ hb := inBucket_of_encodeResult (Option.some.inj ((sampleEnc_settleEnc v s).symm.trans hb))
  decoded := h.decoded

theorem observationsObeySpec_settleDec {s : State} (h : ObservationsObeySpec s) (b : Byte) :
    ObservationsObeySpec (settleDec b (evalDecode b) s) where
  saturated := h.saturated
  inRange := h.inRange
  decoded _ hv _ hk := by
    rw [← Option.some.inj ((sampleDec_settleDec b s).symm.trans hv)]
    exact decodeResult_upper_bits Config.widths.wOut_legal hk b

theorem sampleEnc_of_stageFrame {s t : State} (f : StageFrame s t) : sampleEnc t = sampleEnc s := by
  rw [sampleEnc, f.encPhase, f.encByte, f.encExact, sampleEnc]

theorem sampleDec_of_stageFrame {s t : State} (f : StageFrame s t) : sampleDec t = sampleDec s := by
  rw [sampleDec, f.decPhase, f.decValue, sampleDec]

theorem observationsObeySpec_of_stageFrame {s t : State} (h : ObservationsObeySpec s) (f : StageFrame s t) :
    ObservationsObeySpec t where
  saturated := by rw [sampleEnc_of_stageFrame f, f.encValue]; exact h.saturated
  inRange := by rw [sampleEnc_of_stageFrame f, f.encValue]; exact h.inRange
  decoded := by rw [sampleDec_of_stageFrame f]; exact h.decoded

/-- A drive that changes an input leaves nothing to observe on that side (R95). -/
theorem observationsObeySpec_driveEnc {s : State} (h : ObservationsObeySpec s) (v : EncValue) :
    ObservationsObeySpec (driveEnc v s) := by
  by_cases hc : encCarries v s = true
  · rwa [driveEnc_of_carries hc]
  · rw [driveEnc_of_change hc]
    exact ⟨nofun, nofun, h.decoded⟩

theorem observationsObeySpec_driveDec {s : State} (h : ObservationsObeySpec s) (b : Byte) :
    ObservationsObeySpec (driveDec b s) := by
  by_cases hc : decCarries b s = true
  · rwa [driveDec_of_carries hc]
  · rw [driveDec_of_change hc]
    exact ⟨h.saturated, h.inRange, nofun⟩

theorem observationsObeySpec_step {s t : State} (hs : ObservationsObeySpec s) (h : step s = .next t) :
    ObservationsObeySpec t :=
  step_preserves (P := ObservationsObeySpec) (fun v _ hs => observationsObeySpec_settleEnc hs v)
    (fun b _ hs => observationsObeySpec_settleDec hs b) hs h

theorem observationsObeySpec_exec {i : Instr} {s t : State} (hs : ObservationsObeySpec s) (h : exec i s = .next t) :
    ObservationsObeySpec t := by
  obtain ⟨v, -, rfl⟩ | ⟨b, -, rfl⟩ | hframe := exec_next_cases h
  · exact observationsObeySpec_settleEnc hs v
  · exact observationsObeySpec_settleDec hs b
  · exact observationsObeySpec_of_stageFrame hs hframe

theorem observationsObeySpec_drive {s : State} (hs : ObservationsObeySpec s) (p : PortWord) :
    ObservationsObeySpec (drive p s) := by
  cases p with
  | encValue v => exact observationsObeySpec_driveEnc hs v
  | decByte b => exact observationsObeySpec_driveDec hs b

/-- Settles O51: what ENCODE and DECODE show obeys the spec, a changed input shows nothing, and a stage reaches no
port. -/
theorem observationsObeySpecIsInductive : Obligations.ObservationsObeySpecIsInductive :=
  ⟨fun _ _ => observationsObeySpec_step, fun _ _ _ => observationsObeySpec_exec,
    fun p _ hs => observationsObeySpec_drive hs p⟩

/-- Settles O13: a stage writes signals and the count of free values, on every operand. -/
theorem stagesReachNoPort : Obligations.StagesReachNoPort :=
  fun _ s hi => exec_internal_stageFrame hi s

end Sys2Proof.Machine
end

section
/-! PROOFS. The host's transactions: ENCODE and DECODE sample their own operation on the operand, and so do the two
pseudo-transactions made of them (R49, R50). -/

namespace Sys2Proof.Machine

theorem hostDriveEnc_toNat (v : EncValue) (h : HostState) :
    hostDriveEnc v.toNat h = .ok { h with block := driveEnc v h.block } := by
  rw [hostDriveEnc, if_pos v.isLt, BitVec.ofNat_toNat, BitVec.setWidth_eq]

theorem hostDriveDec_toNat (b : Byte) (h : HostState) :
    hostDriveDec b.toNat h = .ok { h with block := driveDec b h.block } := by
  rw [hostDriveDec, Config.byteBits, if_pos b.isLt, BitVec.ofNat_toNat, BitVec.setWidth_eq]

/-- The host's wait always ends (R80). -/
theorem waitSettle_eq (h : HostState) : waitSettle h = .ok { h with block := afterStep h.block } := by
  rw [waitSettle, step_eq_next_afterStep]

/-- Drive, wait and sample: the host holds ENCODE of the value, and its sample of the decoder is as before. -/
theorem hostEncode_toNat (v : EncValue) (h : HostState) :
    hostEncode v.toNat h =
      .ok { h with block := afterStep (driveEnc v h.block), encSample := some (encodeResult v) } := by
  have hsample : sampleEnc (afterStep (driveEnc v h.block)) = some (encodeResult v) := by
    rw [sampleEnc_afterStep, encDriven_driveEnc, Option.map_some]
  rw [← hsample, hostEncode, hostDriveEnc_toNat]
  simp only [bind, Except.bind, waitSettle_eq]
  rfl

theorem hostDecode_toNat (b : Byte) (h : HostState) :
    hostDecode b.toNat h =
      .ok { h with block := afterStep (driveDec b h.block), decSample := some (decodeResult Config.wOut b) } := by
  have hsample : sampleDec (afterStep (driveDec b h.block)) = some (decodeResult Config.wOut b) := by
    rw [sampleDec_afterStep, decDriven_driveDec, Option.map_some]
  rw [← hsample, hostDecode, hostDriveDec_toNat]
  simp only [bind, Except.bind, waitSettle_eq]
  rfl

/-- QUANTIZE hands the byte of its ENCODE to its DECODE. -/
theorem runTxn_quantize {n : Nat} {h g : HostState} {p : Byte × Bool} (hg : hostEncode n h = .ok g)
    (hp : g.encSample = some p) : runTxn (.quantize (.num n)) h = hostDecode p.1.toNat g := by
  simp only [runTxn, evalExpr, bind, Except.bind, hg, hp]

/-- REENCODE hands the value of its DECODE to its ENCODE. -/
theorem runTxn_reencode {n : Nat} {h g : HostState} {v : DecValue} (hg : hostDecode n h = .ok g)
    (hv : g.decSample = some v) : runTxn (.reencode (.num n)) h = hostEncode v.toNat g := by
  simp only [runTxn, evalExpr, bind, Except.bind, hg, hv]

/-- The decoded value fits the encoder's input at every legal pair of widths (R5). -/
theorem decodeResult_setWidth_toNat (b : Byte) :
    ((decodeResult Config.wOut b).setWidth Config.wIn).toNat = (decodeResult Config.wOut b).toNat := by
  rw [BitVec.toNat_setWidth, decodeResult_toNat Config.widths.wOut_legal,
    Nat.mod_eq_of_lt (decodeNat_lt_two_pow Config.widths.wIn_legal b.toNat)]

/-- Settles O31: the host samples ENCODE and DECODE of what it drives, and neither reads the state the other left. -/
theorem pseudoTransactionsExpand : Obligations.PseudoTransactionsExpand := by
  intro h
  refine ⟨fun v => ?_, fun b => ?_⟩
  · have hrun := runTxn_quantize (hostEncode_toNat v h) rfl
    rw [hostDecode_toNat] at hrun
    exact ⟨_, _, _, exec_encode v _, exec_decode _ _, hrun, rfl, rfl⟩
  · have hrun := runTxn_reencode (hostDecode_toNat b h) rfl
    rw [← decodeResult_setWidth_toNat, hostEncode_toNat] at hrun
    exact ⟨_, _, _, exec_decode b _, exec_encode _ _, hrun, rfl, rfl⟩

end Sys2Proof.Machine
end

section
/-! PROOFS. PACK and UNPACK as a join and a split of bit vectors, and the two stages one after the other (R51 to R53). -/

namespace Sys2Proof.Machine

/-! ### The packer's arithmetic on bit vectors -/

/-- The masks keep the whole of a 4-bit field, and a shift by the field's width is what `++` does. -/
theorem ofNat_packFields (shift mantissa : Nibble) :
    BitVec.ofNat 8 (packFields shift.toNat mantissa.toNat) = shift ++ mantissa := by
  apply BitVec.eq_of_toNat_eq
  rw [BitVec.toNat_ofNat, Nat.mod_eq_of_lt (packFields_lt _ _), BitVec.toNat_append, packFields, mask_nibble,
    mask_nibble, Nat.mod_eq_of_lt shift.isLt, Nat.mod_eq_of_lt mantissa.isLt]

theorem ofNat_shiftField (b : Byte) : BitVec.ofNat 4 (shiftField b.toNat) = b.extractLsb' 4 4 := by
  apply BitVec.eq_of_toNat_eq
  rw [BitVec.toNat_ofNat, shiftField, mask_nibble, Nat.mod_mod, BitVec.extractLsb'_toNat]

theorem ofNat_mantissaField (b : Byte) : BitVec.ofNat 4 (mantissaField b.toNat) = b.extractLsb' 0 4 := by
  apply BitVec.eq_of_toNat_eq
  rw [BitVec.toNat_ofNat, mantissaField_eq_mod, Nat.mod_mod, BitVec.extractLsb'_toNat, Nat.shiftRight_zero]

theorem unpackSignals_eq_extract (b : Byte) :
    unpackSignals b.toNat = ⟨some (b.extractLsb' 4 4), some (b.extractLsb' 0 4)⟩ := by
  rw [unpackSignals, ofNat_shiftField, ofNat_mantissaField]

/-- R53: what UNPACK finds in the byte that PACK joined. -/
theorem unpackSignals_append (shift mantissa : Nibble) :
    unpackSignals (shift ++ mantissa : Byte).toNat = ⟨some shift, some mantissa⟩ := by
  rw [unpackSignals_eq_extract, BitVec.extractLsb'_append_eq_left, BitVec.extractLsb'_append_eq_right]

/-- R53: the two fields of a byte, joined again. -/
theorem extract_append_extract (b : Byte) : b.extractLsb' 4 4 ++ b.extractLsb' 0 4 = b := by
  rw [BitVec.extractLsb'_append_extractLsb'_eq_extractLsb' (by rfl), BitVec.extractLsb'_eq_self]

/-! ### The two stages -/

theorem exec_pack (shift mantissa : Nibble) (s : State) :
    exec (.pack shift mantissa) s = .next (setEncSig { s.enc.sig with packed := some (shift ++ mantissa) } s) := by
  rw [← ofNat_packFields]
  rfl

/-- Settles O1: PACK writes one signal, and that signal is the join of its operands. -/
theorem packJoinsShiftAboveMantissa : Obligations.PackJoinsShiftAboveMantissa := exec_pack

/-- Settles O2: UNPACK writes its two signals, and these are the halves of the byte. -/
theorem unpackSplitsTheByte : Obligations.UnpackSplitsTheByte := by
  intro b s
  rw [exec_unpack, unpackSignals_eq_extract]
  rfl

/-- Settles O3: neither stage reads a signal, so each order of the two is the law of the join and the split. -/
theorem packAndUnpackAreInverse : Obligations.PackAndUnpackAreInverse := by
  refine ⟨fun shift mantissa s => ?_, fun b s => ?_⟩
  · exact ⟨_, shift ++ mantissa, _, exec_pack shift mantissa s, rfl, exec_unpack _ _,
      unpackSignals_append shift mantissa⟩
  · exact ⟨_, b.extractLsb' 4 4, b.extractLsb' 0 4, _, exec_unpack b s, unpackSignals_eq_extract b, exec_pack _ _ _,
      congrArg some (extract_append_extract b)⟩

end Sys2Proof.Machine
end

section
/-! PROOFS. The normalizer's stages: the leading one, the window cut under it, its rounding, the carry, and NORMALIZE as
all of them one after another (R54 to R60). -/

namespace Sys2Proof.Machine

/-! ### MSBSCAN (R54) -/

/-- A signal stands for the number it is made of, where that fits its width. -/
theorem toNat_ofNat_of_lt {width n : Nat} (h : n < 2 ^ width) : (BitVec.ofNat width n).toNat = n := by
  rw [BitVec.toNat_ofNat, Nat.mod_eq_of_lt h]

theorem exec_msbscan (v : EncValue) (s : State) :
    exec (.msbscan v) s = .next (setEncSig { s.enc.sig with i := some (BitVec.ofNat 5 (msbScan v.toNat)) } s) := rfl

/-- Five bits hold the scan's index, whatever is scanned. -/
theorem msbScan_toNat (v : Nat) : (BitVec.ofNat 5 (msbScan v)).toNat = msbScan v :=
  toNat_ofNat_of_lt (by have := (msbScan_mem_window v).2; omega)

theorem msbScan_eq_log2 {v : Nat} (hv : v < 2 ^ 20) : msbScan v = if v = 0 then 4 else max 4 v.log2 := by
  by_cases h0 : v = 0
  · rw [h0]; rfl
  · rw [if_neg h0]
    exact msbScan_of_leading_one ((Nat.log2_lt h0).mpr hv) (Nat.log2_self_le h0) Nat.lt_log2_self

theorem msbScan_of_lt_32 {v : Nat} (hv : v < 32) : msbScan v = 4 := by
  rw [msbScan_eq_log2 (by omega)]
  split
  next => rfl
  next h0 =>
    have hlog : v.log2 < 5 := (Nat.log2_lt h0).mpr hv
    omega

theorem msbScan_le_18 {v : Nat} (hv : v ≤ Config.cMax) : msbScan v ≤ 18 := by
  rcases Nat.lt_or_ge v 32 with hsmall | hlarge
  · rw [msbScan_of_lt_32 hsmall]; decide
  · obtain ⟨hlog, -, h18, -⟩ := leading_one_of_normalizer_input hlarge hv
    exact hlog ▸ h18

/-- The scan reads the bits it scans and no others. -/
theorem msbScanFrom_congr {u v n : Nat} (h : ∀ k, k < n → u.testBit (k + 5) = v.testBit (k + 5)) :
    msbScanFrom u n = msbScanFrom v n := by
  induction n with
  | zero => rfl
  | succ n ih => rw [msbScanFrom, msbScanFrom, h n n.lt_succ_self, ih fun k hk => h k (Nat.lt_succ_of_lt hk)]

theorem msbScan_congr {u v : EncValue} (h : u.extractLsb' 4 16 = v.extractLsb' 4 16) :
    msbScan u.toNat = msbScan v.toNat := by
  refine msbScanFrom_congr fun k hk => ?_
  have hbit := congrArg (BitVec.getLsbD · (k + 1)) h
  simpa [BitVec.getLsbD_extractLsb', show k + 1 < 16 by omega, show 4 + (k + 1) = k + 5 by omega,
    BitVec.testBit_toNat] using hbit

/-- Settles O4: below 2^20 the leading one is in the window or under it. -/
theorem msbScanFindsTheLeadingOne : Obligations.MsbScanFindsTheLeadingOne := by
  intro v s hv
  refine ⟨_, exec_msbscan v s, ?_, fun hsmall => ?_, fun hmax => ?_⟩ <;> rw [msbScan_toNat]
  · exact msbScan_eq_log2 hv
  · exact msbScan_of_lt_32 hsmall
  · exact msbScan_le_18 hmax

/-- Settles O5: the two scans read the same bits, so they leave the same state. -/
theorem msbScanReadsOnlyItsWindow : Obligations.MsbScanReadsOnlyItsWindow := by
  intro u v s huv
  refine ⟨_, exec_msbscan u s, ?_⟩
  rw [exec_msbscan, msbScan_congr huv]

/-! ### WINDOW (R55) -/

/-- The leading one, and the window cut under it, of an input of the normalizer. -/
theorem windowBits_msbScan_range {v : Nat} (hlo : 32 ≤ v) (hhi : v ≤ Config.cMax) :
    32 ≤ windowBits v (msbScan v) ∧ windowBits v (msbScan v) ≤ 63 := by
  obtain ⟨hlog, -, -, h32, h63, -⟩ := leading_one_of_normalizer_input hlo hhi
  rw [windowBits_eq_div, hlog]
  exact ⟨h32, h63⟩

theorem windowBits_toNat {v : Nat} (hlo : 32 ≤ v) (hhi : v ≤ Config.cMax) :
    (BitVec.ofNat 6 (windowBits v (msbScan v))).toNat = windowBits v (msbScan v) :=
  toNat_ofNat_of_lt (Nat.lt_succ_of_le (windowBits_msbScan_range hlo hhi).2)

theorem exec_window {v : EncValue} {i : BitVec 5} (hlo : 32 ≤ v.toNat) (hhi : v.toNat ≤ Config.cMax)
    (hi : i.toNat = msbScan v.toNat) (s : State) :
    exec (.window v i) s =
      .next (setEncSig { s.enc.sig with w := some (BitVec.ofNat 6 (windowBits v.toNat i.toNat)) } s) :=
  execWindow_of_admits ((windowAdmits_iff _ _).mpr ⟨⟨hlo, hhi⟩, hi⟩) s

/-- The leading one is the top bit of a window of 32 or more. -/
theorem getLsbD_five_of_window {w : BitVec 6} (hw : 32 ≤ w.toNat) : w.getLsbD 5 = true := by
  rw [← BitVec.msb_eq_getLsbD_last, BitVec.msb_eq_decide]
  exact decide_eq_true hw

/-- Settles O6: the shift by `i - 5` leaves the six bits from the leading one down, and six bits hold it. -/
theorem windowCutsSixBitsUnderTheLeadingOne : Obligations.WindowCutsSixBitsUnderTheLeadingOne := by
  intro v i s hlo hhi hi
  obtain ⟨hlog, h5, h18, -⟩ := leading_one_of_normalizer_input hlo hhi
  have hscan : i.toNat = msbScan v.toNat := hi.trans hlog.symm
  have hrange := windowBits_msbScan_range hlo hhi
  have hw := windowBits_toNat hlo hhi
  rw [← hscan] at hrange hw
  have hdiv := hw.trans (windowBits_eq_div _ _)
  refine ⟨_, exec_window hlo hhi hscan s, rfl, hdiv, hi ▸ h5, hi ▸ h18, ?_, fun hi5 => ?_⟩
  · exact getLsbD_five_of_window (hrange.1.trans_eq hw.symm)
  · rw [hdiv, hi5, Nat.sub_self, pow_zero, Nat.div_one]

/-! ### ROUND (R56) -/

theorem roundBit_toNat (w : Nat) : (BitVec.ofNat 1 (roundBit w)).toNat = w % 2 := by
  rw [roundBit_eq_mod, BitVec.toNat_ofNat, pow_one, Nat.mod_mod]

/-- Seven bits hold the rounded window. -/
theorem roundedWindow_toNat {w : Nat} (hw : w ≤ 63) : (BitVec.ofNat 7 (roundedWindow w)).toNat = w + w % 2 := by
  rw [roundedWindow_eq_add_mod]
  exact toNat_ofNat_of_lt (by omega)

theorem exec_round {w : BitVec 6} (hw : 32 ≤ w.toNat) (s : State) :
    exec (.round w) s = .next (setEncSig { s.enc.sig with
      r := some (BitVec.ofNat 1 (roundBit w.toNat))
      wr := some (BitVec.ofNat 7 (roundedWindow w.toNat)) } s) :=
  execRound_of_admits ((roundAdmits_iff _).mpr ⟨hw, Nat.le_of_lt_succ w.isLt⟩) s

/-- Settles O7: `w + w % 2` is the least even number from `w` up. -/
theorem roundIsHalfUpOnOneGuardBit : Obligations.RoundIsHalfUpOnOneGuardBit := by
  intro w s hlo
  have hhi : w.toNat ≤ 63 := Nat.le_of_lt_succ w.isLt
  have hr := roundBit_toNat w.toNat
  have hwr := roundedWindow_toNat hhi
  refine ⟨_, _, exec_round hlo s, ?_, hwr, ?_, ?_, ?_, ?_, ?_⟩
  · apply BitVec.eq_of_toNat_eq
    rw [hr, BitVec.extractLsb'_toNat, Nat.shiftRight_zero, pow_one]
  · rw [BitVec.getLsbD, hwr, Nat.testBit_zero]
    exact decide_eq_false (by omega)
  all_goals omega

/-! ### RENORM (R57) -/

theorem carryBit_toNat {wr : Nat} (hwr : wr ≤ 64) : (BitVec.ofNat 1 (carryBit wr)).toNat = wr / 64 := by
  rw [carryBit_eq_div_mod, BitVec.toNat_ofNat]
  omega

/-- Five bits hold the index after the carry. -/
theorem renormIndex_toNat {wr i : Nat} (hwr : wr ≤ 64) (hi : i ≤ 18) :
    (BitVec.ofNat 5 (renormIndex wr i)).toNat = i + wr / 64 := by
  rw [renormIndex_eq_add, BitVec.toNat_ofNat]
  omega

/-- A one-bit signal is 1 exactly as a number. -/
theorem bit_eq_one_iff {c : BitVec 1} : c = 1 ↔ c.toNat = 1 := BitVec.toNat_eq

theorem exec_renorm {wr : BitVec 7} {i : BitVec 5} (hwr : 32 ≤ wr.toNat ∧ wr.toNat ≤ 64)
    (hi : 5 ≤ i.toNat ∧ i.toNat ≤ 18) (s : State) :
    exec (.renorm wr i) s = .next (setEncSig { s.enc.sig with
      c := some (BitVec.ofNat 1 (carryBit wr.toNat))
      ir := some (BitVec.ofNat 5 (renormIndex wr.toNat i.toNat)) } s) :=
  execRenorm_of_admits ((renormAdmits_iff _ _).mpr ⟨hwr, hi⟩) s

theorem ofNat_carryBit (wr : BitVec 7) : BitVec.ofNat 1 (carryBit wr.toNat) = wr.extractLsb' 6 1 := by
  apply BitVec.eq_of_toNat_eq
  rw [carryBit, Nat.and_one_is_mod, BitVec.toNat_ofNat, pow_one, Nat.mod_mod, BitVec.extractLsb'_toNat, pow_one]

/-! ### NORMALIZE (R58, R59) -/

theorem normWindow_range {v : Nat} (hlo : 32 ≤ v) (hhi : v ≤ Config.cMax) : 32 ≤ normWindow v ∧ normWindow v ≤ 64 := by
  have hw := windowBits_msbScan_range hlo hhi
  rw [normWindow, roundedWindow_eq_add_mod]
  omega

theorem normWindow_toNat {v : Nat} (hlo : 32 ≤ v) (hhi : v ≤ Config.cMax) :
    (BitVec.ofNat 7 (normWindow v)).toNat = normWindow v :=
  toNat_ofNat_of_lt ((normWindow_range hlo hhi).2.trans_lt (by decide))

/-- The carry never moves the index past 18: at index 18 the window of an input in range is at most 62. -/
theorem normIndex_range {v : Nat} (hlo : 32 ≤ v) (hhi : v ≤ Config.cMax) : 5 ≤ normIndex v ∧ normIndex v ≤ 18 := by
  obtain ⟨hlog, h5, h18, -, h63, htop⟩ := leading_one_of_normalizer_input hlo hhi
  rw [normIndex, normWindow, renormIndex_eq_add, roundedWindow_eq_add_mod, windowBits_eq_div, hlog]
  generalize v / 2 ^ (v.log2 - 5) = q at *
  omega

theorem normIndex_toNat {v : Nat} (hlo : 32 ≤ v) (hhi : v ≤ Config.cMax) :
    (BitVec.ofNat 5 (normIndex v)).toNat = normIndex v :=
  toNat_ofNat_of_lt ((normIndex_range hlo hhi).2.trans_lt (by decide))

theorem mantissaOf_toNat (wr : Nat) : (BitVec.ofNat 4 (mantissaOf wr)).toNat = wr / 2 % 16 := by
  rw [mantissaOf_eq_div_mod, BitVec.toNat_ofNat, show 2 ^ 4 = 16 from rfl, Nat.mod_mod]

/-- Four bits hold the shift, and nothing is lost below 3. -/
theorem shiftOf_toNat {ir : Nat} (h5 : 5 ≤ ir) (h18 : ir ≤ 18) : (BitVec.ofNat 4 (shiftOf ir)).toNat + 3 = ir := by
  rw [shiftOf, toNat_ofNat_of_lt (by omega)]
  omega

theorem exec_normalize {v : EncValue} (hlo : 32 ≤ v.toNat) (hhi : v.toNat ≤ Config.cMax) (s : State) :
    exec (.normalize v) s = .next (setEncSig (normSignals v.toNat s.enc.sig) s) :=
  execNormalize_of_admits ((normalizeAdmits_iff _).mpr ⟨hlo, hhi⟩) s

/-- Settles O9: each signal is as wide as its values need, so it stands for the number its rule gives. -/
theorem normalizeGivesEverySignal : Obligations.NormalizeGivesEverySignal := by
  intro v s hlo hhi
  obtain ⟨hlog, -, h18, -⟩ := leading_one_of_normalizer_input hlo hhi
  have hw := windowBits_toNat hlo hhi
  have hw63 := (windowBits_msbScan_range hlo hhi).2
  have hwr := normWindow_toNat hlo hhi
  have hwr64 := (normWindow_range hlo hhi).2
  obtain ⟨hir5, hir18⟩ := normIndex_range hlo hhi
  refine ⟨_, _, _, _, _, _, _, _, exec_normalize hlo hhi s, ?_, ?_, ?_, ?_, ?_, ?_, ?_, ?_⟩
  · rw [msbScan_toNat, hlog]
  · rw [hw, windowBits_eq_div, hlog]
  · rw [hw, roundBit_toNat]
  · rw [hw, roundBit_toNat, normWindow, roundedWindow_toNat hw63]
  · rw [hwr, carryBit_toNat hwr64]
  · rw [normIndex, renormIndex_toNat hwr64 (hlog ▸ h18), msbScan_toNat, carryBit_toNat hwr64]
  · rw [hwr, normalizeFields, mantissaOf_toNat]
  · rw [normIndex_toNat hlo hhi, normalizeFields, shiftOf_toNat hir5 hir18]

/-- Settles O8: the carry is bit 6 of a number up to 64, and a window rounds to 64 exactly from 63. -/
theorem renormMovesTheIndexUpByTheCarry : Obligations.RenormMovesTheIndexUpByTheCarry := by
  refine ⟨fun wr i s hwr32 hwr64 hi5 hi18 => ?_, fun v s hlo hhi => ?_⟩
  · have hc := carryBit_toNat hwr64
    refine ⟨_, _, exec_renorm ⟨hwr32, hwr64⟩ ⟨hi5, hi18⟩ s, ?_, ofNat_carryBit wr, ?_⟩
    · rw [bit_eq_one_iff, hc]; omega
    · rw [renormIndex_toNat hwr64 hi18, hc]
  · obtain ⟨-, -, hlog18, -, -, htop⟩ := leading_one_of_normalizer_input hlo hhi
    obtain ⟨i, w, r, wr, c, ir, shift, mantissa, hexec, hi, hw, hr, hwr, hc, hir, hmantissa, -⟩ :=
      normalizeGivesEverySignal v s hlo hhi
    have hwindow : v.extractLsb' (v.toNat.log2 - 5) 6 = w := by
      apply BitVec.eq_of_toNat_eq
      rw [BitVec.extractLsb'_toNat, Nat.shiftRight_eq_div_pow, ← hw, Nat.mod_eq_of_lt w.isLt]
    have hw64 := w.isLt
    have hcarry : c = 1 ↔ w = 63 := by
      rw [bit_eq_one_iff, BitVec.toNat_eq, show (63 : BitVec 6).toNat = 63 from rfl]
      omega
    refine ⟨_, hexec, ?_, fun h1 => ?_, ir, rfl, ?_⟩
    · rw [hwindow]
      exact Option.some_inj.trans hcarry
    · obtain rfl : w = 63 := hcarry.mp (Option.some_inj.mp h1)
      have hr1 : r.toNat = 1 := hr
      have hm0 : mantissa.toNat = 0 := by rw [hmantissa, hwr, hr1]; rfl
      exact ⟨rfl, congrArg some (bit_eq_one_iff.mpr hr1), congrArg some (BitVec.eq_of_toNat_eq hm0)⟩
    · rw [← hw] at htop
      omega

/-- The two fields stand for the rounded window: without a carry its significand is kept, and a carry stores the mantissa
0 and counts one more shift (R57). -/
theorem significand_of_roundedWindow {wr : Nat} (h32 : 32 ≤ wr) (h64 : wr ≤ 64) (heven : wr % 2 = 0) :
    (16 + wr / 2 % 16) * 2 ^ (wr / 64 + 1) = wr := by
  rcases Nat.lt_or_eq_of_le h64 with hlt | rfl
  · rw [Nat.div_eq_of_lt hlt]; omega
  · rfl

/-- Settles O10: the ranges are those of the signals' numbers, and the carry moves one power of two from the significand
into the shift. -/
theorem normalizeStaysInRange : Obligations.NormalizeStaysInRange := by
  intro v s hlo hhi
  obtain ⟨-, hlog5, hlog18, hq32, hq63, htop⟩ := leading_one_of_normalizer_input hlo hhi
  obtain ⟨i, w, r, wr, c, ir, shift, mantissa, hexec, hi, hw, hr, hwr, hc, hir, hmantissa, hshift⟩ :=
    normalizeGivesEverySignal v s hlo hhi
  rw [← hw] at hq32 hq63 htop ⊢
  have hvalue : (16 + mantissa.toNat) <<< (shift.toNat - 1) = wr.toNat <<< (i.toNat - 5) := by
    have hamount : shift.toNat - 1 = wr.toNat / 64 + 1 + (i.toNat - 5) := by omega
    rw [Nat.shiftLeft_eq, Nat.shiftLeft_eq, hamount, pow_add, ← Nat.mul_assoc, hmantissa,
      significand_of_roundedWindow (by omega) (by omega) (by omega)]
  refine ⟨_, i, w, wr, ir, shift, mantissa, hexec, rfl, rfl, rfl, rfl, rfl, rfl, ?_, ?_, ?_, ?_, ?_, ?_, ?_, hvalue⟩
  all_goals omega

/-! ### NORMALIZE as its stages -/

theorem ofNat_mantissaOf (wr : BitVec 7) : BitVec.ofNat 4 (mantissaOf wr.toNat) = wr.extractLsb' 1 4 := by
  apply BitVec.eq_of_toNat_eq
  rw [mantissaOf_toNat, BitVec.extractLsb'_toNat, Nat.shiftRight_eq_div_pow, pow_one]

theorem ofNat_shiftOf {ir : BitVec 5} (h : 3 ≤ ir.toNat) : BitVec.ofNat 4 (shiftOf ir.toNat) = (ir - 3).setWidth 4 := by
  apply BitVec.eq_of_toNat_eq
  rw [BitVec.toNat_ofNat, BitVec.toNat_setWidth, BitVec.toNat_sub_of_le (show 3 ≤ ir from BitVec.le_def.mpr h), shiftOf]
  rfl

/-- Settles O11: each stage's signal stands for the number the next stage is fed in NORMALIZE's own arithmetic. -/
theorem normalizeRefinesItsStages : Obligations.NormalizeRefinesItsStages := by
  intro v s hlo hhi
  obtain ⟨hlog, h5, h18, -⟩ := leading_one_of_normalizer_input hlo hhi
  have hi := msbScan_toNat v.toNat
  have hw := windowBits_toNat hlo hhi
  have hwr := normWindow_toNat hlo hhi
  have hir := normIndex_toNat hlo hhi
  have hshift := ofNat_shiftOf (ir := BitVec.ofNat 5 (normIndex v.toNat))
    (hir.symm ▸ (by decide : 3 ≤ 5).trans (normIndex_range hlo hhi).1)
  have hmantissa := ofNat_mantissaOf (BitVec.ofNat 7 (normWindow v.toNat))
  rw [hir] at hshift
  rw [hwr] at hmantissa
  refine ⟨_, _, _, _, BitVec.ofNat 5 (msbScan v.toNat), BitVec.ofNat 6 (windowBits v.toNat (msbScan v.toNat)),
    BitVec.ofNat 7 (normWindow v.toNat), BitVec.ofNat 5 (normIndex v.toNat), exec_msbscan v s, rfl,
    exec_window hlo hhi hi _, ?_, exec_round ((windowBits_msbScan_range hlo hhi).1.trans_eq hw.symm) _, ?_,
    exec_renorm (hwr.symm ▸ normWindow_range hlo hhi) (hi.symm ▸ hlog.symm ▸ ⟨h5, h18⟩) _, ?_, ?_⟩
  · rw [hi]
    rfl
  · rw [hw]
    rfl
  · rw [hi, hwr]
    rfl
  · rw [exec_normalize hlo hhi, hi, hw, hwr, ← hshift, ← hmantissa]
    rfl

/-! ### Operands that no rule admits -/

/-- Settles O12: admitted or not, a stage writes its own result signals; where it is not, it draws once. -/
theorem boundedStagesCompleteOnEveryOperand : Obligations.BoundedStagesCompleteOnEveryOperand := by
  intro s
  refine ⟨fun v i => ?_, fun w => ?_, fun wr i => ?_, fun v => ?_⟩
  · by_cases h : windowAdmits v.toNat i.toNat = true
    · exact ⟨_, _, execWindow_of_admits h s⟩
    · exact ⟨_, _, execWindow_of_not_admits h s⟩
  · by_cases h : roundAdmits w.toNat = true
    · exact ⟨_, _, _, execRound_of_admits h s⟩
    · exact ⟨_, _, _, execRound_of_not_admits h s⟩
  · by_cases h : renormAdmits wr.toNat i.toNat = true
    · exact ⟨_, _, _, execRenorm_of_admits h s⟩
    · exact ⟨_, _, _, execRenorm_of_not_admits h s⟩
  · by_cases h : normalizeAdmits v.toNat = true
    · exact ⟨normSignals v.toNat s.enc.sig, _, execNormalize_of_admits h s⟩
    · exact ⟨freeNormSignals s.serial s.enc.draws s.enc.sig, _, execNormalize_of_not_admits h s⟩

end Sys2Proof.Machine
end

section
/-! PROOFS. The buckets of R71 follow one another without gap or overlap; so the bytes of inputs and the values of bytes
are ordered as their buckets are, and a byte's value lies within half a step of its inputs (R68, R69, R71). -/

namespace Sys2Proof.Machine

/-! ### The buckets in a row (R71) -/

/-- R75: a byte's own value is among its inputs. -/
theorem inBucket_decodeNat {b : Nat} (hb : b < 256) : InBucket b (decodeNat b) := by
  have h := inBucket_encodeByte (decodeNat_le_cMax b)
  rwa [encodeByte_decodeNat hb] at h

/-- Where a bucket ends the next begins: within the unrounded shifts, within a rounded shift, and from the last mantissa
of a shift to the first of the next. -/
theorem bucketHi_add_one_eq_bucketLo (b : Nat) :
    bucketHi (b / 16) (b % 16) + 1 = bucketLo ((b + 1) / 16) ((b + 1) % 16) := by
  rcases lt_trichotomy b 31 with hsmall | rfl | hlarge
  · rw [bucketHi_of_shift_le_one (by omega), bucketLo_of_shift_le_one (by omega)]
    omega
  · decide
  · obtain ⟨j, hj⟩ : ∃ j, b / 16 = j + 2 := ⟨b / 16 - 2, by omega⟩
    rw [hj, bucketHi_add_one]
    by_cases hm : b % 16 = 15
    · rw [show (b + 1) / 16 = j + 3 by omega, show (b + 1) % 16 = 0 by omega, bucketLo_of_mantissa_zero, hm]
    · rw [show (b + 1) / 16 = j + 2 by omega, show (b + 1) % 16 = b % 16 + 1 by omega,
        bucketLo_of_mantissa_pos j (Nat.le_add_left 1 _), show 31 + 2 * (b % 16 + 1) = 33 + 2 * (b % 16) by omega]

theorem bucketHi_lt_bucketLo {a b : Nat} (hab : a < b) (hb : b < 256) :
    bucketHi (a / 16) (a % 16) < bucketLo (b / 16) (b % 16) := by
  induction b, hab using Nat.le_induction with
  | base => exact (bucketHi_add_one_eq_bucketLo a).le
  | succ b _ ih =>
    have hbucket := inBucket_decodeNat (Nat.lt_of_succ_lt hb)
    calc bucketHi (a / 16) (a % 16)
        < bucketLo (b / 16) (b % 16) := ih (Nat.lt_of_succ_lt hb)
      _ ≤ bucketHi (b / 16) (b % 16) := hbucket.1.trans hbucket.2
      _ < bucketHi (b / 16) (b % 16) + 1 := Nat.lt_succ_self _
      _ = bucketLo ((b + 1) / 16) ((b + 1) % 16) := bucketHi_add_one_eq_bucketLo b

/-- A lower bucket holds lower values. -/
theorem InBucket.lt_of_lt {a b u v : Nat} (hu : InBucket a u) (hv : InBucket b v) (hab : a < b) (hb : b < 256) :
    u < v :=
  calc u ≤ bucketHi (a / 16) (a % 16) := hu.2
    _ < bucketLo (b / 16) (b % 16) := bucketHi_lt_bucketLo hab hb
    _ ≤ v := hv.1

/-- The inputs of a byte are its bucket (R71): no value lies in two buckets. -/
theorem encodeByte_eq_iff_inBucket {b v : Nat} (hb : b < 256) (hv : v ≤ Config.cMax) :
    encodeByte v = b ↔ InBucket b v := by
  have hown := inBucket_encodeByte hv
  refine ⟨fun h => h ▸ hown, fun h => ?_⟩
  rcases lt_trichotomy (encodeByte v) b with hlt | heq | hgt
  · exact absurd (hown.lt_of_lt h hlt hb) (Nat.lt_irrefl v)
  · exact heq
  · exact absurd (h.lt_of_lt hown hgt (encodeByte_lt v)) (Nat.lt_irrefl v)

/-! ### Order (R69, R74) -/

theorem encodeByte_mono {u v : Nat} (huv : u ≤ v) : encodeByte u ≤ encodeByte v := by
  rcases Nat.lt_or_ge Config.cMax v with hv | hv
  · rw [encodeByte_saturated hv]
    exact Nat.le_of_lt_succ (encodeByte_lt u)
  · by_contra hlt
    exact absurd ((inBucket_encodeByte hv).lt_of_lt (inBucket_encodeByte (huv.trans hv)) (Nat.lt_of_not_le hlt)
      (encodeByte_lt u)) (Nat.not_lt.mpr huv)

theorem decodeNat_lt_decodeNat {a b : Nat} (hab : a < b) (hb : b < 256) : decodeNat a < decodeNat b :=
  (inBucket_decodeNat (hab.trans hb)).lt_of_lt (inBucket_decodeNat hb) hab hb

theorem decodeNat_mono {a b : Nat} (hab : a ≤ b) (hb : b < 256) : decodeNat a ≤ decodeNat b := by
  rcases Nat.lt_or_eq_of_le hab with hlt | rfl
  · exact (decodeNat_lt_decodeNat hlt hb).le
  · exact Nat.le_refl _

/-! ### The last bucket and the saturated byte (R62, R70) -/

theorem decodeNat_byteMax : decodeNat Config.byteMax = Config.decMax := by decide

theorem bucketLo_byteMax : bucketLo 15 15 = 499712 := by decide

theorem bucketHi_byteMax : bucketHi 15 15 = Config.cMax := by decide

theorem encodeByte_eq_byteMax_iff (v : Nat) : encodeByte v = Config.byteMax ↔ 499712 ≤ v := by
  rcases Nat.lt_or_ge Config.cMax v with hv | hv
  · have hv' : 516095 < v := hv
    exact ⟨fun _ => by omega, fun _ => encodeByte_saturated hv⟩
  · calc encodeByte v = 255 ↔ bucketLo 15 15 ≤ v ∧ v ≤ bucketHi 15 15 := encodeByte_eq_iff_inBucket (by decide) hv
      _ ↔ 499712 ≤ v := by rw [bucketLo_byteMax, bucketHi_byteMax, and_iff_left hv]

/-! ### The value a byte stands for (R67, R68) -/

/-- A byte below 32 stands for itself: at shift 1 the implicit one stands where the shift field does. -/
theorem decodeNat_small {b : Nat} (hb : b < 32) : decodeNat b = b := by
  have hs := shiftField_eq_div_mod b
  have hm := mantissaField_eq_mod b
  by_cases h16 : b < 16
  · rw [decodeNat_shift_zero (by omega)]
    omega
  · rw [decodeNat_shift_pos (by omega), show shiftField b - 1 = 0 by omega]
    omega

/-- The byte that counts `h` half steps of shift `j + 1` from its implicit one up. With `h = 32` the carry has moved into
the shift field, which doubles the step and leaves the mantissa 0. -/
theorem decodeNat_of_half_steps {j h : Nat} (h16 : 16 ≤ h) (h32 : h ≤ 32) (hb : 16 * (j + 1) + h < 256) :
    decodeNat (16 * (j + 1) + h) = h * 2 ^ (j + 1) := by
  have hs := shiftField_eq_div_mod (16 * (j + 1) + h)
  have hm := mantissaField_eq_mod (16 * (j + 1) + h)
  rw [decodeNat_shift_pos (by omega)]
  rcases Nat.lt_or_eq_of_le h32 with hlt | rfl
  · rw [show 16 + mantissaField (16 * (j + 1) + h) = h by omega,
      show shiftField (16 * (j + 1) + h) - 1 = j + 1 by omega]
  · rw [show mantissaField (16 * (j + 1) + 32) = 0 by omega,
      show shiftField (16 * (j + 1) + 32) - 1 = j + 2 by omega, pow_succ 2 (j + 1)]
    omega

/-- From 32 up, what a byte stands for is the window of its input, rounded to an even one and put back in its place. -/
theorem decodeNat_encodeByte_normalizer {v : Nat} (hlo : 32 ≤ v) (hhi : v ≤ Config.cMax) :
    decodeNat (encodeByte v) = (v / 2 ^ (v.log2 - 5) + 1) / 2 * 2 * 2 ^ (v.log2 - 5) := by
  obtain ⟨-, hk5, -, hq32, hq63, -⟩ := leading_one_of_normalizer_input hlo hhi
  have hbyte := encodeByte_normalizer hlo hhi
  have hb : encodeByte v = 16 * (v.log2 - 5 + 1) + (v / 2 ^ (v.log2 - 5) + 1) / 2 := by omega
  rw [hb, decodeNat_of_half_steps (by omega) (by omega) (hb ▸ encodeByte_lt v), pow_succ', Nat.mul_assoc]

/-- R68's bound of half a step: rounding moves the window by at most one unit of its last place. -/
theorem natAbs_decodeNat_encodeByte_sub_le {v : Nat} (hlo : 32 ≤ v) (hhi : v ≤ Config.cMax) :
    ((decodeNat (encodeByte v) : Int) - v).natAbs ≤ 2 ^ (v.log2 - 5) := by
  rw [decodeNat_encodeByte_normalizer hlo hhi]
  have hbelow : v / 2 ^ (v.log2 - 5) * 2 ^ (v.log2 - 5) ≤ v := Nat.div_mul_le_self _ _
  have habove : v < (v / 2 ^ (v.log2 - 5) + 1) * 2 ^ (v.log2 - 5) :=
    Nat.lt_mul_of_div_lt (Nat.lt_succ_self _) (by positivity)
  generalize v / 2 ^ (v.log2 - 5) = q at *
  rw [Nat.succ_mul] at habove
  rcases Nat.even_or_odd' q with ⟨n, rfl | rfl⟩
  · rw [show (2 * n + 1) / 2 * 2 = 2 * n by omega]
    omega
  · rw [show (2 * n + 1 + 1) / 2 * 2 = 2 * n + 1 + 1 by omega, Nat.succ_mul (2 * n + 1)]
    omega

/-- R68's bound of 1/32: half a step is at most that part of the input, since the window holds 32 of them. -/
theorem two_pow_log2_sub_mul_le {v : Nat} (hlo : 32 ≤ v) : 32 * 2 ^ (v.log2 - 5) ≤ v := by
  have h0 : v ≠ 0 := by omega
  have h5 : 5 ≤ v.log2 := (Nat.le_log2 h0).mpr hlo
  calc 32 * 2 ^ (v.log2 - 5) = 2 ^ v.log2 := by rw [show 32 = 2 ^ 5 from rfl, ← pow_add, Nat.add_sub_of_le h5]
    _ ≤ v := Nat.log2_self_le h0

end Sys2Proof.Machine
end

section
/-! PROOFS. ENCODE on the ports, alone and with DECODE of its byte after it: the paths of R61 and the laws of R62 to
R71. -/

namespace Sys2Proof.Machine

/-! ### What ENCODE, and DECODE after it, leave on the ports -/

theorem encodeFrame_settleEnc (v : EncValue) (e : EncEvaluation) (s : State) : EncodeFrame s (settleEnc v e s) :=
  ⟨rfl, rfl, rfl, rfl⟩

theorem encoderDrives_of_encodeResult {v : EncValue} {byte : Byte} {flag : Bool} (h : encodeResult v = (byte, flag))
    (s : State) : EncoderDrives v byte flag (settleEnc v (evalEncode v) s) :=
  ⟨rfl, rfl, congrArg Prod.fst h, congrArg Prod.snd h, rfl⟩

theorem encodeResult_byte_toNat {w : Nat} (v : BitVec w) : (encodeResult v).1.toNat = encodeByte v.toNat :=
  toNat_ofNat_of_lt (encodeByte_lt v.toNat)

/-- ENCODE alone completes, drives its pair and keeps its frame. -/
theorem exec_encode_drives (v : EncValue) (s : State) :
    ∃ t, exec (.encode v) s = .next t ∧ EncoderDrives v (encodeResult v).1 (encodeResult v).2 t ∧ EncodeFrame s t :=
  ⟨_, exec_encode v s, encoderDrives_of_encodeResult rfl s, encodeFrame_settleEnc v _ s⟩

theorem dec_value_of_exec_decode {b : Byte} {s u : State} (h : exec (.decode b) s = .next u) :
    u.dec.value.toNat = decodeNat b.toNat := by
  rw [exec_decode] at h
  cases h
  exact decodeResult_toNat Config.widths.wOut_legal b

/-- ENCODE and then DECODE of its byte, in the numbers the ports stand for. -/
theorem exec_encode_decode (v : EncValue) (s : State) :
    ∃ t u, exec (.encode v) s = .next t ∧ exec (.decode t.enc.byte) t = .next u ∧
      t.enc.byte.toNat = encodeByte v.toNat ∧ t.enc.exact = exactFlag v.toNat ∧
      u.dec.value.toNat = decodeNat (encodeByte v.toNat) := by
  obtain ⟨t, hencode, hdrives, -⟩ := exec_encode_drives v s
  have hbyte : t.enc.byte.toNat = encodeByte v.toNat := by rw [hdrives.byteOut, encodeResult_byte_toNat]
  have hdecode := exec_decode t.enc.byte t
  exact ⟨t, _, hencode, hdecode, hbyte, hdrives.exactOut, hbyte ▸ dec_value_of_exec_decode hdecode⟩

/-! ### The paths of ENCODE (R61 to R66) -/

/-- Settles O14: saturation comes first, and 0xFF decodes to the greatest decoded value. -/
theorem encodeSaturatesAboveCmax : Obligations.EncodeSaturatesAboveCmax := by
  intro v s hv
  have hdrives := encoderDrives_of_encodeResult (encodeResult_saturated hv) s
  have hdecode := exec_decode (settleEnc v (evalEncode v) s).enc.byte (settleEnc v (evalEncode v) s)
  refine ⟨_, _, exec_encode v s, hdrives, encodeFrame_settleEnc v _ s, hdecode, BitVec.eq_of_toNat_eq ?_⟩
  rw [dec_value_of_exec_decode hdecode, hdrives.byteOut]
  exact decodeNat_byteMax

theorem encodeResult_small {v : EncValue} (hv : v.toNat < 32) : encodeResult v = (v.setWidth 8, true) := by
  rw [encodeResult_inRange (hv.le.trans (by decide)), encodeByte_small hv, BitVec.ofNat_toNat]

/-- Settles O15: the small-value path stores the five bits of the input as they are, across the two fields. -/
theorem encodeStoresSmallValuesUnrounded : Obligations.EncodeStoresSmallValuesUnrounded := by
  intro v s hv
  have hdrives := encoderDrives_of_encodeResult (encodeResult_small hv) s
  have hbyte : (v.setWidth 8).toNat = v.toNat := by
    rw [BitVec.toNat_setWidth, Nat.mod_eq_of_lt (by omega)]
  refine ⟨_, exec_encode v s, hdrives, encodeFrame_settleEnc v _ s, ?_, ?_⟩ <;>
    rw [hdrives.byteOut, BitVec.extractLsb'_toNat, hbyte, Nat.shiftRight_eq_div_pow]
  · exact Nat.mod_eq_of_lt (show v.toNat / 16 < 16 by omega)
  · rw [pow_zero, Nat.div_one]

/-- Settles O16: the byte of the normalizer path, counted in half steps. -/
theorem encodeRoundsBelowTheLeadingOne : Obligations.EncodeRoundsBelowTheLeadingOne := by
  intro v s hlo hhi
  have hdrives := encoderDrives_of_encodeResult (encodeResult_inRange hhi) s
  refine ⟨_, exec_encode v s, hdrives.byteOut ▸ hdrives, encodeFrame_settleEnc v _ s, ?_⟩
  rw [hdrives.byteOut, toNat_ofNat_of_lt (encodeByte_lt _)]
  exact encodeByte_normalizer hlo hhi

/-- Settles O17: the flag compares the input with CMAX and nothing else; 33 is in range and its guard bit is lost. -/
theorem exactFlagMeansInRange : Obligations.ExactFlagMeansInRange := by
  refine ⟨fun v s => ?_, fun s => ?_⟩
  · obtain ⟨t, hencode, hdrives, hframe⟩ := exec_encode_drives v s
    exact ⟨t, hencode, hframe, hdrives.exactOut ▸ exactFlag_iff v.toNat⟩
  · have h33 : encodeByte 33 = 0x21 := by decide
    obtain ⟨t, u, hencode, hdecode, hbyte, hexact, hvalue⟩ := exec_encode_decode 33 s
    refine ⟨t, u, hencode, hexact, BitVec.eq_of_toNat_eq (hbyte.trans h33), hdecode, BitVec.eq_of_toNat_eq ?_⟩
    calc u.dec.value.toNat = decodeNat (encodeByte 33) := hvalue
      _ = decodeNat 0x21 := by rw [h33]
      _ = 34 := by decide

/-- PACK's masks are the truncation of each operand to its field. -/
theorem ofNat_packFields_ofNat (s m : Nat) :
    BitVec.ofNat 8 (packFields s m) = BitVec.ofNat 4 s ++ BitVec.ofNat 4 m := by
  rw [← ofNat_packFields]
  simp only [packFields, mask_nibble, BitVec.toNat_ofNat, Nat.reducePow, Nat.mod_mod]

/-- In range the byte is the join of the two fields. -/
theorem encodeResult_append {v : EncValue} {sh m : Nat} (hv : v.toNat ≤ Config.cMax)
    (hfields : encodeFields v.toNat = (sh, m)) : encodeResult v = (BitVec.ofNat 4 sh ++ BitVec.ofNat 4 m, true) := by
  rw [encodeResult_inRange hv, encodeByte_inRange hv, hfields, ofNat_packFields_ofNat]

/-- The signals of the normalizer path (R19, R59) are those of NORMALIZE, with PACK's result beside them. -/
theorem encodeSignals_normalizer {v : Nat} (hlo : 32 ≤ v) (hhi : v ≤ Config.cMax) (g : EncSignals) :
    encodeSignals v = { normSignals v g with
      packed := some (BitVec.ofNat 4 (normalizeFields v).1 ++ BitVec.ofNat 4 (normalizeFields v).2) } := by
  rw [encodeSignals, if_neg (Nat.not_lt.mpr hhi), if_neg (Nat.not_lt.mpr hlo), fieldSignals,
    encodeFields_normalizer hlo, ofNat_packFields_ofNat]
  rfl

/-- Settles O18: each path's fields, joined by PACK, are the byte. -/
theorem encodeRefinesItsStages : Obligations.EncodeRefinesItsStages := by
  intro v s
  have h16 : (16 : EncValue).toNat = 16 := rfl
  refine ⟨_, exec_encode v s, encodeFrame_settleEnc v _ s, fun hsat => ?saturated, fun hv => ?shiftZero,
    fun hlo hv => ?shiftOne, fun hlo hhi => ?normalizer⟩
  case saturated => exact encoderDrives_of_encodeResult (encodeResult_saturated hsat) s
  case shiftZero =>
    refine ⟨_, _, exec_pack _ _ s, rfl, encoderDrives_of_encodeResult ?_ s⟩
    rw [encodeResult_append (hv.le.trans (by decide)) (encodeFields_shift_zero hv), BitVec.ofNat_toNat]
    rfl
  case shiftOne =>
    have hsub : (v - 16).toNat = v.toNat - 16 := BitVec.toNat_sub_of_le (BitVec.le_def.mpr hlo)
    refine ⟨_, _, exec_pack _ _ s, rfl, encoderDrives_of_encodeResult ?_ s⟩
    rw [encodeResult_append (hv.le.trans (by decide)) (encodeFields_shift_one hlo hv), ← hsub, BitVec.ofNat_toNat]
    rfl
  case normalizer =>
    exact ⟨_, _, _, _, _, exec_normalize hlo hhi s, rfl, rfl, exec_pack _ _ _, rfl,
      encoderDrives_of_encodeResult (encodeResult_append hhi (encodeFields_normalizer hlo)) s,
      encodeSignals_normalizer hlo hhi s.enc.sig⟩

/-! ### ENCODE and then DECODE (R67 to R71) -/

/-- Settles O25: below 32 the byte is the input, and such a byte stands for itself. -/
theorem smallValuesRoundTrip : Obligations.SmallValuesRoundTrip := by
  intro v s hv
  obtain ⟨t, u, hencode, hdecode, -, -, hvalue⟩ := exec_encode_decode v s
  exact ⟨t, u, hencode, hdecode, by rw [hvalue, encodeByte_small hv, decodeNat_small hv]⟩

/-- Settles O26: the bound of half a step gives the relative one. -/
theorem encodingErrorIsBounded : Obligations.EncodingErrorIsBounded := by
  intro v s hlo hhi
  obtain ⟨t, u, hencode, hdecode, -, -, hvalue⟩ := exec_encode_decode v s
  have herror := natAbs_decodeNat_encodeByte_sub_le hlo hhi
  rw [← hvalue] at herror
  exact ⟨t, u, hencode, hdecode, (Nat.mul_le_mul_left 32 herror).trans (two_pow_log2_sub_mul_le hlo), herror⟩

/-- Settles O27: both functions keep the order of the buckets, and no byte is above the saturated one. -/
theorem encodingIsMonotone : Obligations.EncodingIsMonotone := by
  intro a b s s' hab
  have hbytes := encodeByte_mono hab.le
  obtain ⟨t, u, hencode, hdecode, hbyte, -, hvalue⟩ := exec_encode_decode a s
  obtain ⟨t', u', hencode', hdecode', hbyte', -, hvalue'⟩ := exec_encode_decode b s'
  refine ⟨t, t', u, u', hencode, hencode', ?_, hdecode, hdecode', ?_⟩
  · rwa [hbyte, hbyte']
  · rw [hvalue, hvalue']
    exact decodeNat_mono hbytes (encodeByte_lt _)

/-- Settles O28: 0xFF is the byte of its bucket and of everything above it, and only the flag reads CMAX. -/
theorem onlyTheFlagTellsSaturation : Obligations.OnlyTheFlagTellsSaturation := by
  intro v s
  obtain ⟨t, u, hencode, hdecode, hbyte, hexact, hvalue⟩ := exec_encode_decode v s
  refine ⟨t, u, hencode, hdecode, fun hin => hexact.trans ((exactFlag_iff _).mpr hin), fun hsat => ⟨?_, ?_⟩, ?_⟩
  · exact hexact.trans (decide_eq_false (Nat.not_le.mpr hsat))
  · apply BitVec.eq_of_toNat_eq
    rw [hvalue, encodeByte_saturated hsat]
    exact decodeNat_byteMax
  · rw [← BitVec.toNat_inj, hbyte]
    exact encodeByte_eq_byteMax_iff v.toNat

/-- The table's intervals hold every value in range exactly once. -/
theorem existsUnique_inBucket {n : Nat} (hn : n ≤ Config.cMax) : ∃! b : Byte, InBucket b.toNat n := by
  refine ⟨BitVec.ofNat 8 (encodeByte n), ?_, fun b hb => ?_⟩
  · change InBucket (BitVec.ofNat 8 (encodeByte n)).toNat n
    rw [toNat_ofNat_of_lt (encodeByte_lt n)]
    exact inBucket_encodeByte hn
  · rw [(encodeByte_eq_iff_inBucket b.isLt hn).mpr hb, BitVec.ofNat_toNat, BitVec.setWidth_eq]

/-- R71's lossless inputs: those that some byte stands for. -/
theorem decodeNat_encodeByte_eq_iff (v : Nat) : decodeNat (encodeByte v) = v ↔ ∃ b : Byte, decodeNat b.toNat = v := by
  refine ⟨fun h => ⟨BitVec.ofNat 8 (encodeByte v), ?_⟩, ?_⟩
  · rw [toNat_ofNat_of_lt (encodeByte_lt v), h]
  · rintro ⟨b, rfl⟩
    rw [encodeByte_decodeNat b.isLt]

/-- Settles O29: an input lies in the bucket of its byte and in no other, and a decoded value is encoded to the byte it
came from. -/
theorem bucketsAreTheIntervalsOfTheTable : Obligations.BucketsAreTheIntervalsOfTheTable := by
  refine ⟨fun b v s hv => ?_, fun n hn => existsUnique_inBucket hn, bucketHi_byteMax, fun v s _ => ?_⟩
  · obtain ⟨t, -, hencode, -, hbyte, -⟩ := exec_encode_decode v s
    refine ⟨t, hencode, ?_⟩
    rw [← BitVec.toNat_inj, hbyte]
    exact encodeByte_eq_iff_inBucket b.isLt hv
  · obtain ⟨t, u, hencode, hdecode, -, -, hvalue⟩ := exec_encode_decode v s
    refine ⟨t, u, hencode, hdecode, fun h => ⟨_, _, u, hdecode, h⟩, ?_⟩
    rintro ⟨b, s', u', hdecode', hvalue'⟩
    rw [hvalue, decodeNat_encodeByte_eq_iff]
    exact ⟨b, (dec_value_of_exec_decode hdecode').symm.trans hvalue'⟩

end Sys2Proof.Machine
end

section
/-! PROOFS. DECODE on the ports: its value in the fields of the byte and the laws of R73, R74 and R76; and ENCODE of a
decoded value (R50, R75). -/

namespace Sys2Proof.Machine

/-! ### The value in the fields of the byte (R41, R72) -/

/-- The rule of R72 on a driven byte, whose shift field is all that stands above the mantissa. -/
theorem decodeNat_toNat (b : Byte) :
    decodeNat b.toNat =
      if b.toNat / 16 = 0 then b.toNat % 16 else (16 + b.toNat % 16) * 2 ^ (b.toNat / 16 - 1) := by
  have hs : shiftField b.toNat = b.toNat / 16 := by rw [shiftField_eq_div_mod]; omega
  split
  next h => rw [decodeNat_shift_zero (hs.trans h), mantissaField_eq_mod]
  next h => rw [decodeNat_shift_pos (hs ▸ h), mantissaField_eq_mod, hs]

theorem shiftField_append (sh m : Nibble) : shiftField (sh ++ m : Byte).toNat = sh.toNat :=
  calc shiftField (sh ++ m : Byte).toNat
      = (BitVec.ofNat 4 (shiftField (sh ++ m : Byte).toNat)).toNat := (toNat_ofNat_of_lt (shiftField_lt _)).symm
    _ = sh.toNat := by rw [ofNat_shiftField, BitVec.extractLsb'_append_eq_left]

theorem mantissaField_append (sh m : Nibble) : mantissaField (sh ++ m : Byte).toNat = m.toNat :=
  calc mantissaField (sh ++ m : Byte).toNat
      = (BitVec.ofNat 4 (mantissaField (sh ++ m : Byte).toNat)).toNat := (toNat_ofNat_of_lt (mantissaField_lt _)).symm
    _ = m.toNat := by rw [ofNat_mantissaField, BitVec.extractLsb'_append_eq_right]

/-- Shift 0: the byte is its mantissa. -/
theorem decodeNat_append_shift_zero {sh : Nibble} (h : sh.toNat = 0) (m : Nibble) :
    decodeNat (sh ++ m : Byte).toNat = m.toNat := by
  rw [decodeNat_shift_zero ((shiftField_append sh m).trans h), mantissaField_append]

/-- R76: the run of a shift of at least 1, from its start in steps of the shift. -/
theorem decodeNat_append_shift_pos {sh : Nibble} (h : 1 ≤ sh.toNat) (m : Nibble) :
    decodeNat (sh ++ m : Byte).toNat = 2 ^ (sh.toNat + 3) + m.toNat * 2 ^ (sh.toNat - 1) := by
  have hstart : 2 ^ (sh.toNat + 3) = 16 * 2 ^ (sh.toNat - 1) := by
    rw [show sh.toNat + 3 = 4 + (sh.toNat - 1) by omega, pow_add]
    rfl
  rw [decodeNat_shift_pos (by rw [shiftField_append]; omega), shiftField_append, mantissaField_append, hstart,
    Nat.add_mul]

/-- R73: the maximum is reached at the last byte only, since every byte before it decodes to less. -/
theorem decodeNat_eq_decMax_iff {b : Nat} (hb : b < 256) : decodeNat b = Config.decMax ↔ b = Config.byteMax := by
  refine ⟨fun h => ?_, fun h => h ▸ decodeNat_byteMax⟩
  by_contra hne
  have hlt : b < Config.byteMax := Nat.lt_of_le_of_ne (Nat.le_of_lt_succ hb) hne
  exact absurd (h.trans decodeNat_byteMax.symm) (decodeNat_lt_decodeNat hlt (by decide)).ne

/-! ### DECODE (R72 to R76) -/

/-- Settles O19: DECODE settles its own side on the value of R72 and touches nothing else. -/
theorem decodeScalesTheSignificand : Obligations.DecodeScalesTheSignificand := by
  intro b s
  refine ⟨decodeResult Config.wOut b, exec_decode b s, ?_⟩
  rw [decodeResult_toNat Config.widths.wOut_legal, decodeNat_toNat]

/-- Settles O21: 19 bits hold every decoded value, and the order of the values leaves the maximum to the last byte. -/
theorem decodeStaysInRange : Obligations.DecodeStaysInRange := by
  intro b s
  have hdecode := exec_decode b s
  have hvalue := dec_value_of_exec_decode hdecode
  refine ⟨_, hdecode, hvalue ▸ decodeNat_le_decMax b.toNat, ?_,
    fun k hk => decodeResult_upper_bits Config.widths.wOut_legal hk b⟩
  rw [← BitVec.toNat_inj, ← BitVec.toNat_inj, hvalue]
  exact decodeNat_eq_decMax_iff b.isLt

/-- Settles O22: the decoded values are ordered as the buckets of their bytes are. -/
theorem decodeIsStrictlyMonotone : Obligations.DecodeIsStrictlyMonotone := by
  intro a b s s' hab
  have hdecode := exec_decode a s
  have hdecode' := exec_decode b s'
  refine ⟨_, _, hdecode, hdecode', ?_⟩
  rw [dec_value_of_exec_decode hdecode, dec_value_of_exec_decode hdecode']
  exact decodeNat_lt_decodeNat hab b.isLt

/-- Settles O23: the run of each shift, and its last value as one step below the start of the next. -/
theorem decodeStepDoublesPerShift : Obligations.DecodeStepDoublesPerShift := by
  intro sh k s hk
  have hdecode := exec_decode (sh ++ BitVec.ofNat 4 k) s
  have hmantissa : (BitVec.ofNat 4 k).toNat = k := toNat_ofNat_of_lt hk
  refine ⟨_, hdecode, fun h0 => ?_, fun h1 => ?_⟩ <;> rw [dec_value_of_exec_decode hdecode]
  · rw [decodeNat_append_shift_zero h0, hmantissa]
  · rw [decodeNat_append_shift_pos h1, hmantissa]
    obtain ⟨j, hj⟩ : ∃ j, sh.toNat = j + 1 := ⟨sh.toNat - 1, by omega⟩
    rw [hj, Nat.add_sub_cancel]
    refine ⟨rfl, ?_⟩
    rintro rfl
    constructor <;> ring

/-! ### ENCODE of a decoded value (R50, R75) -/

/-- Settles O24: the decoded value fits `ENC_VALUE`, and its fields are those of the byte. -/
theorem reencodingIsTheIdentity : Obligations.ReencodingIsTheIdentity := by
  intro b s
  have hresult := encodeResult_decodeResult Config.widths.wIn_legal Config.widths.wOut_legal b
  have hdrives := encoderDrives_of_encodeResult hresult (settleDec b (evalDecode b) s)
  exact ⟨_, _, exec_decode b s, exec_encode _ _, hdrives.byteOut, hdrives.exactOut⟩

/-- Settles O30: the second ENCODE gives the first byte back, and DECODE reads only the byte. -/
theorem quantizingTwiceIsQuantizingOnce : Obligations.QuantizingTwiceIsQuantizingOnce := by
  intro v s
  obtain ⟨t, hencode, -⟩ := exec_encode_drives v s
  obtain ⟨u, t', hdecode, hencode', hbyte, hexact⟩ := reencodingIsTheIdentity t.enc.byte t
  have hdecode' := exec_decode t'.enc.byte t'
  refine ⟨t, u, t', _, hencode, hdecode, hencode', hdecode', hbyte, hexact, BitVec.eq_of_toNat_eq ?_⟩
  rw [dec_value_of_exec_decode hdecode', dec_value_of_exec_decode hdecode, hbyte]

end Sys2Proof.Machine
end

section
/-! PROOFS. Every operation and every step has a next state (R80); and an instance of a row sees the events at it and no
others, so it shows the results of its own inputs (R33, R88). -/

namespace Sys2Proof.Machine

/-! ### No fault and no refusal (R80) -/

/-- A port selects the operation or none does, and it completes either way. -/
theorem exec_eq_next (i : Instr) (s : State) : ∃ t, exec i s = .next t := by
  cases hi : i.isExternal with
  | true =>
    obtain ⟨p, rfl⟩ := isExternal_iff_decodePort.mp hi
    exact exec_decodePort_next p s
  | false =>
    obtain ⟨t, ht, -⟩ := exec_internal_stageFrame hi s
    exact ⟨t, ht⟩

/-- Settles O33: ENCODE and DECODE settle their own side, a stage writes signals, and a step settles what is driven. -/
theorem nothingFaultsOrIsRefused : Obligations.NothingFaultsOrIsRefused :=
  ⟨exec_eq_next, fun s => ⟨_, step_eq_next_afterStep s⟩⟩

/-! ### An instance of a row sees its own events (R88) -/

theorem eventsOf_append (k : Nat) (es fs : List (Nat × HostEvent)) :
    eventsOf k (es ++ fs) = eventsOf k es ++ eventsOf k fs := by
  induction es with
  | nil => rfl
  | cons e es ih =>
    rw [List.cons_append, eventsOf, eventsOf, ih]
    split <;> rfl

theorem eventsOf_append_same (k : Nat) (es : List (Nat × HostEvent)) (e : HostEvent) :
    eventsOf k (es ++ [(k, e)]) = eventsOf k es ++ [e] := by
  rw [eventsOf_append, eventsOf, if_pos rfl, eventsOf]

theorem eventAt_getElem?_same {k : Nat} {row : List State} {s : State} (h : row[k]? = some s) (e : HostEvent) :
    (eventAt k e row)[k]? = some (applyEvent e s) := by
  rw [eventAt, List.getElem?_modify_eq, h, Option.map_eq_map, Option.map_some]

theorem eventAt_getElem?_ne {j k : Nat} (hjk : j ≠ k) (e : HostEvent) (row : List State) :
    (eventAt j e row)[k]? = row[k]? :=
  List.getElem?_modify_ne _ _ hjk

/-- In a row an instance runs the events that happen at it, as if it were alone. -/
theorem runRow_getElem? (es : List (Nat × HostEvent)) {row : List State} {k : Nat} {s : State} (h : row[k]? = some s) :
    (runRow es row)[k]? = some (runEvents (eventsOf k es) s) := by
  induction es generalizing row s with
  | nil => exact h
  | cons e es ih =>
    rw [runRow, eventsOf]
    split
    case isTrue hk =>
      subst hk
      exact ih (eventAt_getElem?_same h e.2)
    case isFalse hk => exact ih ((eventAt_getElem?_ne hk e.2 row).trans h)

/-- Settles O40: instance `k` runs its own events alone, and a run of one instance keeps its results (O39). -/
theorem eachInstanceShowsItsOwnResults : Obligations.EachInstanceShowsItsOwnResults := by
  intro es row k s hrow hs
  obtain ⟨hkeeps, hencWait, hdecWait⟩ := everyInterleavingKeepsResults (eventsOf k es) s
  obtain ⟨henc, hdec⟩ := hkeeps hs
  have hwait := runRow_getElem? (es ++ [(k, .wait)]) hrow
  rw [eventsOf_append_same] at hwait
  exact ⟨_, _, runRow_getElem? es hrow, hwait, henc, hdec, hencWait, hdecWait⟩

end Sys2Proof.Machine
end

section
/-! PROOFS. Reset, and when outputs can be observed: nothing at power-up (R92), nothing between a change of an input and
the end of `T_SETTLE` (R95, R99), then the operation of the input, whatever the state (R98) and whatever the other datapath
does meanwhile (R96). -/

namespace Sys2Proof.Machine

/-! ### A wait after a drive (R95, R96) -/

theorem sampleEnc_afterStep_driveEnc (v : EncValue) (s : State) :
    sampleEnc (afterStep (driveEnc v s)) = some (encodeResult v) := by
  rw [sampleEnc_afterStep, encDriven_driveEnc, Option.map_some]

theorem sampleDec_afterStep_driveDec (b : Byte) (s : State) :
    sampleDec (afterStep (driveDec b s)) = some (decodeResult Config.wOut b) := by
  rw [sampleDec_afterStep, decDriven_driveDec, Option.map_some]

/-- With both inputs driven, one step runs both operations (R33, R82, R96). -/
theorem step_of_both_driven {v : EncValue} {b : Byte} {s : State} (henc : encDriven s = some v)
    (hdec : decDriven s = some b) :
    step s = .next (settleDec b (evalDecode b) (settleEnc v (evalEncode v) s)) := by
  have hpresented : presented s = [.encValue v, .decByte b] := by rw [presented, henc, hdec]; rfl
  rw [step_eq_runPorts hpresented, runPorts_cons (p := .encValue v) (exec_encode v s), runPorts_singleton]
  exact exec_decode b _

/-- Neither drive takes the other's input away, whichever comes first. -/
theorem driven_of_both_drives {v : EncValue} {b : Byte} {s s' : State}
    (h : s' = driveDec b (driveEnc v s) ∨ s' = driveEnc v (driveDec b s)) :
    encDriven s' = some v ∧ decDriven s' = some b := by
  rcases h with rfl | rfl
  · exact ⟨by rw [encDriven_driveDec, encDriven_driveEnc], decDriven_driveDec b _⟩
  · exact ⟨encDriven_driveEnc v _, by rw [decDriven_driveEnc, decDriven_driveDec]⟩

/-- DECODE leaves what the encoder drives as it is (R33). -/
theorem encoderDrives_settleDec {v : EncValue} {byte : Byte} {flag : Bool} {t : State}
    (h : EncoderDrives v byte flag t) (b : Byte) (e : DecEvaluation) : EncoderDrives v byte flag (settleDec b e t) :=
  ⟨h.value, h.phase, h.byteOut, h.exactOut, h.sig⟩

/-- Settles O37: one step runs both operations, the second leaves the encoder's side as the first set it, and neither
reads the state it starts in. -/
theorem overlappingTransactionsKeepTheirResults : Obligations.OverlappingTransactionsKeepTheirResults := by
  intro v b s s' h
  obtain ⟨henc, hdec⟩ := driven_of_both_drives h
  refine ⟨_, _, _, step_of_both_driven henc hdec, exec_encode v s, exec_decode b s,
    encoderDrives_settleDec (encoderDrives_of_encodeResult (v := v) rfl s') b _, ?_, rfl, rfl, ?_⟩
  · rw [sampleEnc_congr (settleDec_enc b _ _), sampleEnc_settleEnc, sampleEnc_settleEnc]
  · rw [sampleDec_settleDec, sampleDec_settleDec]

/-! ### A timed observation (R95, R99) -/

section
variable {α : Type} [DecidableEq α] {wave : Nat → Option α} {now : Nat}

theorem heldValue_of_held {a : α} (hheld : ∀ d, d ≤ (Config.tSettle : Nat) → wave (now - d) = some a)
    (hlate : (Config.tSettle : Nat) ≤ now) : heldValue wave now = some a := by
  have hnow : wave now = some a := hheld 0 (Nat.zero_le _)
  rw [heldValue, if_pos ⟨hlate, fun d hd => (hheld d hd).trans hnow.symm⟩, hnow]

theorem heldValue_of_change {d : Nat} (hd : d ≤ (Config.tSettle : Nat)) (hchange : wave (now - d) ≠ wave now) :
    heldValue wave now = none :=
  if_neg fun ⟨_, hheld⟩ => hchange (hheld d hd)

theorem heldValue_of_early (hearly : now < (Config.tSettle : Nat)) : heldValue wave now = none :=
  if_neg fun ⟨hlate, _⟩ => Nat.not_le.mpr hearly hlate

end

theorem observeEnc_of_heldValue {wave : Nat → Option EncValue} {now : Nat} {a : Option EncValue}
    (h : heldValue wave now = a) : observeEnc wave now = a.map encodeResult := by
  rw [observeEnc, h]

theorem observeDec_of_heldValue {wave : Nat → Option Byte} {now : Nat} {a : Option Byte}
    (h : heldValue wave now = a) : observeDec wave now = a.map (decodeResult Config.wOut) := by
  rw [observeDec, h]

/-- Settles O43: a held input is observed as its operation, which is what a step after a drive of it shows; the two other
cases hold no value. -/
theorem timedObservationIsTheSettledOutput : Obligations.TimedObservationIsTheSettledOutput := by
  refine ⟨fun wave now v s => ⟨fun hheld hlate => ?_, fun d hd hchange => ?_, fun hearly => ?_⟩,
    fun wave now b s => ⟨fun hheld hlate => ?_, fun d hd hchange => ?_, fun hearly => ?_⟩⟩
  · refine ⟨_, step_eq_next_afterStep _, ?_⟩
    rw [sampleEnc_afterStep_driveEnc]
    exact observeEnc_of_heldValue (heldValue_of_held hheld hlate)
  · exact observeEnc_of_heldValue (heldValue_of_change hd hchange)
  · exact observeEnc_of_heldValue (heldValue_of_early hearly)
  · refine ⟨_, step_eq_next_afterStep _, ?_⟩
    rw [sampleDec_afterStep_driveDec]
    exact observeDec_of_heldValue (heldValue_of_held hheld hlate)
  · exact observeDec_of_heldValue (heldValue_of_change hd hchange)
  · exact observeDec_of_heldValue (heldValue_of_early hearly)

/-! ### The outputs are a function of the input (R98) -/

/-- Settles O35: from either state the operation settles its side with the evaluation of its operand, which reads no
state. -/
theorem outputsDependOnlyOnTheInput : Obligations.OutputsDependOnlyOnTheInput := by
  refine fun s s' => ⟨fun v => ?_, fun b => ?_⟩
  · refine ⟨_, _, exec_encode v s, exec_encode v s', rfl, rfl, sampleEnc_settleEnc v s, ?_⟩
    rw [sampleEnc_settleEnc, sampleEnc_settleEnc]
  · refine ⟨_, _, exec_decode b s, exec_decode b s', rfl, sampleDec_settleDec b s, ?_⟩
    rw [sampleDec_settleDec, sampleDec_settleDec]

/-! ### A drive hides its own outputs (R92, R95) -/

theorem sampleEnc_driveEnc_of_change {v : EncValue} {s : State} (h : s.enc.phase = .undriven ∨ s.enc.value ≠ v) :
    sampleEnc (driveEnc v s) = none := by
  have hchange : encCarries v s ≠ true := by
    rw [Ne, encCarries_iff, not_and_or, not_not]
    exact h
  rw [sampleEnc_driveEnc, if_neg (mt encDriven_eq_some_iff.mp hchange)]

theorem sampleDec_driveDec_of_change {b : Byte} {s : State} (h : s.dec.phase = .undriven ∨ s.dec.byte ≠ b) :
    sampleDec (driveDec b s) = none := by
  have hchange : decCarries b s ≠ true := by
    rw [Ne, decCarries_iff, not_and_or, not_not]
    exact h
  rw [sampleDec_driveDec, if_neg (mt decDriven_eq_some_iff.mp hchange)]

/-- Settles O41: a drive of the value on the wire is no change, any other starts a window without observation, and the
step that ends it evaluates what is driven. -/
theorem drivingHidesItsOwnOutputsUntilAStep : Obligations.DrivingHidesItsOwnOutputsUntilAStep :=
  ⟨fun v s => ⟨sampleEnc_driveEnc_of_change,
      fun hphase hvalue => driveEnc_of_carries ((encCarries_iff v s).mpr ⟨hphase, hvalue⟩), driveEnc_dec v s,
      _, step_eq_next_afterStep _, sampleEnc_afterStep_driveEnc v s⟩,
    fun b s => ⟨sampleDec_driveDec_of_change,
      fun hphase hbyte => driveDec_of_carries ((decCarries_iff b s).mpr ⟨hphase, hbyte⟩), driveDec_enc b s,
      _, step_eq_next_afterStep _, sampleDec_afterStep_driveDec b s⟩⟩

/-! ### Reset (R91, R92) -/

theorem reset_enc_phase : State.reset.enc.phase = .undriven := rfl

theorem reset_dec_phase : State.reset.dec.phase = .undriven := rfl

/-- Settles O42: neither input is driven at reset, so no output has settled and no transaction is on the ports. -/
theorem nothingIsObservableAtReset : Obligations.NothingIsObservableAtReset := by
  refine ⟨sampleEnc_of_not_settled ?_, sampleDec_of_not_settled ?_, presented_eq_nil_iff.mpr
    ⟨encDriven_of_undriven reset_enc_phase, decDriven_of_undriven reset_dec_phase⟩⟩
  · rw [reset_enc_phase]; nofun
  · rw [reset_dec_phase]; nofun

/-- Settles O50: no datapath has settled at reset, and no evaluation is under way. -/
theorem resetMeetsPortsFollowInputs : Obligations.ResetMeetsPortsFollowInputs :=
  ⟨portsFollowInputs_reset, noSignals_reset⟩

/-- Settles O52: the ports follow their inputs at reset, and where they do, what is observed obeys the spec. -/
theorem resetMeetsObservationsObeySpec : Obligations.ResetMeetsObservationsObeySpec :=
  observationsObeySpec_of_portsFollowInputs portsFollowInputs_reset

end Sys2Proof.Machine
end

section
/-! PROOFS. The words the test vectors write out (`spec/95_test_vectors.md` section 4) are instances of the decoder's
laws for the two ports. -/

namespace Sys2Proof.Machine

/-- Settles O48: each written word is in the range of the port its width selects, whose law gives the transaction. -/
theorem writtenWordsDecode : Obligations.WrittenWordsDecode :=
  ⟨decodeWord_encValue (w := 0x00000028) (by decide), decodeWord_decByte (w := 0b00100100) (by decide),
    decodeWord_encValue (w := 0xFFFFFFFF) (by decide), decodeWord_encValue (w := 0x0007C000) (by decide),
    decodeWord_decByte (w := 0b11111111) (by decide)⟩

end Sys2Proof.Machine
end
